-- ==== Sys2Proof/Word.lean ====
section
/-! DEFINITION. The word the block exchanges, a 32-bit address (10_state.md R20), and the names of its
two levels (00_scope.md R2). -/

namespace Sys2Proof

/-- "a 32-bit unsigned value supplied by the trace" (R20). Bit `i` has weight `2^i`, bit 31 is the most
significant (R7, 90_conflicts.md C2). -/
abbrev Address := BitVec 32

/-- The two cache levels, in the order an access is presented to them (R2). -/
inductive LevelId where
  | l1
  | l2
  deriving DecidableEq, Repr

end Sys2Proof
end

