-- ==== Sys2Proof/Config.lean ====
section
/-! DEFINITION. What is fixed for the machine: the parameters of 00_scope.md R6, and the free values, which
the spec leaves open (opaque constants without a body, so no proof can see what they are). -/

namespace Sys2Proof

/-- `MULTI_MATCH` (R6, R84): which line a write probe dirties when several valid lines match. -/
inductive MultiMatch where
  | lowest
  | all
  deriving DecidableEq, Repr

/-- The three configuration inputs of one level (10_state.md R11). They are natural numbers in the model
and 32-bit fields at the port (R54, decision D3). `ways` is the spec's `cfgWays`. -/
structure CfgIn where
  blockSizeBytes : Nat
  ways : Nat
  capacityKB : Nat
  deriving DecidableEq, Repr

/-- `ADDR_W`, the width of an address in bits (R6). -/
def Config.addrWidth : Nat := 32

/-- `CFG_W`, the width of a configuration field at the port (R6, decision D3; assumption 15). -/
def Config.cfgWidth : Nat := 32

/-- `MULTI_MATCH = lowest` (R84, decision D10; assumption 8). -/
def Config.multiMatch : MultiMatch := .lowest

/-- `TAG_RESET`: the tag of a line that was never filled, a draw per line (R24, decision D9,
93_implementation_defined.md U1). The arguments are the reset of the level the line stands in (the counter
`CacheLevel.epoch`), the level, the set number and the way number. A reader keeps its low `tagBits` bits.
FREE VALUE, assumption 3. -/
opaque Config.unwrittenTag : (epoch : Nat) → LevelId → (set way : Nat) → Nat

/-- What `COMPOSE` answers for operands outside `tag < 2^tagBits`, `index < 2^indexBits`, for which R71
states no result. The arguments are the widths of the level's index and offset fields and the two operands.
FREE VALUE, assumption 4. -/
opaque Config.composeOutOfRange : (indexBits offsetBits tag index : Nat) → Address

/-- The configuration of L1 in the state after reset. DESIGN CHOICE, assumption 1: the spec gives these
inputs no reset value (R11); these are those of the source's end-to-end scenario (95_test_vectors.md E7). -/
def Config.resetCfgL1 : CfgIn := { blockSizeBytes := 32, ways := 1, capacityKB := 8 }

/-- The configuration of L2 in the state after reset. DESIGN CHOICE, assumption 1. -/
def Config.resetCfgL2 : CfgIn := { blockSizeBytes := 32, ways := 4, capacityKB := 64 }

end Sys2Proof
end

