-- ==== Sys2Proof/Syntax.lean ====
section
/-! DEFINITION. The operations of the block (00_scope.md section 6), one constructor per row of
opcode_table.json, the ports their words belong to (30_encoding.md R47), and what the environment can do to the block
(70_reset_and_hazards.md R124). -/

namespace Sys2Proof

/-- The twelve operations. An operation of a level carries the level it is applied to: in the hardware the
level is the port the word arrives at, not a field of the word (R54, R55). -/
inductive Instr where
  /-- `READ a`, R89. -/
  | read (a : Address)
  /-- `WRITE a`, R90. -/
  | write (a : Address)
  /-- `NOP`, R77; the word's address field is unused and kept. -/
  | nop (l : LevelId) (a : Address)
  /-- `PROBE_RD(address)`, R78. -/
  | probeRd (l : LevelId) (a : Address)
  /-- `PROBE_WR(address)`, R79. -/
  | probeWr (l : LevelId) (a : Address)
  /-- `VDIRTY(address)`, R80. -/
  | vdirty (l : LevelId) (a : Address)
  /-- `FILL(address)`, R81. -/
  | fill (l : LevelId) (a : Address)
  /-- `VADDR(address)`, R82. -/
  | vaddr (l : LevelId) (a : Address)
  /-- `CONFIGURE(level, blockSizeBytes, cfgWays, capacityKB)`, R68. -/
  | configure (l : LevelId) (blockSizeBytes ways capacityKB : Nat)
  /-- `RESET(level)`, R115. -/
  | reset (l : LevelId)
  /-- `DECODE(address)` at a level, R69. -/
  | decode (l : LevelId) (a : Address)
  /-- `COMPOSE(tag, index)` at a level, R71. -/
  | compose (l : LevelId) (tag index : Nat)
  deriving DecidableEq, Repr

/-- Where a word belongs. `req`, `uop` and `cfg` are the ports of R47; only `req` and, at construction, the two `cfg`
are reached from outside the block, all others are inside it (R29, R112). `rst`, `dec` and `cmp` are the model's own: the
spec gives RESET, DECODE and COMPOSE no encoding (30_encoding.md section 5), and without them no step could run these
three. DESIGN CHOICE, assumption 6. -/
inductive Port where
  /-- `REQ33`, the requester's port (R48). -/
  | req
  /-- `UOP35`, the command port of a level (R55). -/
  | uop (l : LevelId)
  /-- `CFG96`, the configuration port of a level (R54). -/
  | cfg (l : LevelId)
  /-- The wire by which CONFIGURE applies RESET to its level (R68); its word has no bits. It is no reset input of the
  block. -/
  | rst (l : LevelId)
  /-- The address input of a level's decoder; the word is the address. -/
  | dec (l : LevelId)
  /-- The inputs of a level's composer: the tag in bits 63:32, the index in bits 31:0. -/
  | cmp (l : LevelId)
  deriving DecidableEq, Repr

/-- A word at a port. 96 bits hold the widest, `CFG96`; a narrower port's word has zeros above its
width. -/
structure PortWord where
  port : Port
  word : BitVec 96
  deriving DecidableEq, Repr

/-- What the environment can do to the block, from the table of R124: "What is not in the table cannot be done: it has no
move in a model." To stop is to present nothing more. -/
inductive Interaction where
  /-- The two configuration words, L1's then L2's (R54). -/
  | construct (w1 w2 : BitVec 96)
  /-- One request word (R48). -/
  | access (w : BitVec 33)
  deriving DecidableEq, Repr

end Sys2Proof
end

