-- ==== Sys2Proof/WellFormed.lean ====
section
/-! DEFINITION. Which instructions have a word: every operand fits its field of the encoding. -/

namespace Sys2Proof

/-- The operand fits a field of `n` bits. -/
def fitsField (n v : Nat) : Bool := decide (v < 2 ^ n)

/-- Addresses always fit (R48, R55). The three inputs of CONFIGURE fit fields of `CFG_W` bits (R54, D3), and
the operands of COMPOSE fit the 32-bit inputs of the model's own port (assumption 6). -/
def Instr.wellFormed : Instr → Bool
  | .read _ | .write _ => true
  | .nop _ _ | .probeRd _ _ | .probeWr _ _ | .vdirty _ _ | .fill _ _ | .vaddr _ _ => true
  | .configure _ b w c =>
    fitsField Config.cfgWidth b && fitsField Config.cfgWidth w && fitsField Config.cfgWidth c
  | .reset _ => true
  | .decode _ _ => true
  | .compose _ tag index => fitsField 32 tag && fitsField 32 index

end Sys2Proof
end

