-- ==== Sys2Proof/Decode.lean ====
section
/-! DEFINITION. From a word at a port to an operation, and back (30_encoding.md). A word's format is given by
the port it is presented at, so decoding takes both. -/

namespace Sys2Proof

/-- `v[lo+width-1 : lo] = floor(v / 2^lo) mod 2^width` (R7, R61 b). A field of zero width is 0, and a shift by
32 or more of an address is 0. -/
def bitField (v lo width : Nat) : Nat := v / 2 ^ lo % 2 ^ width

/-- The `addr` field, bits 31:0, of `REQ33` and `UOP35` (R48, R55). -/
def addrField (v : Nat) : Address := BitVec.ofNat 32 (bitField v 0 32)

/-- The width of a port's word in bits (R47; the last three are the model's own, assumption 6). -/
def Port.width : Port → Nat
  | .req => 33
  | .uop _ => 35
  | .cfg _ => 96
  | .rst _ => 0
  | .dec _ => 32
  | .cmp _ => 64

/-- Why a word is no operation. -/
inductive DecodeError where
  /-- `UOP35` with the reserved `op` 110 or 111 (R55, R59 c). -/
  | reservedOp (op : Nat)
  /-- A bit is set above the port's width; no such wire exists (R47, assumption 16). -/
  | wordTooWide (p : Port)
  deriving DecidableEq, Repr

/-- What the decoder answers: an operation, or a rejection by name. -/
inductive DecodeResult where
  | instr (i : Instr)
  | reject (e : DecodeError)
  deriving DecidableEq, Repr

/-- The `op` field, bits 34:32, of `UOP35` (R55). -/
def decodeUop (l : LevelId) (op : Nat) (a : Address) : DecodeResult :=
  match op with
  | 0 => .instr (.nop l a)
  | 1 => .instr (.probeRd l a)
  | 2 => .instr (.probeWr l a)
  | 3 => .instr (.vdirty l a)
  | 4 => .instr (.fill l a)
  | 5 => .instr (.vaddr l a)
  | op => .reject (.reservedOp op)

/-- The `kind` field, bit 32, of `REQ33`: 0 is Read, 1 is Write (R48). -/
def decodeReq (kind : Nat) (a : Address) : DecodeResult :=
  match kind with
  | 0 => .instr (.read a)
  | _ => .instr (.write a)

/-- The operation a word at a port stands for (R48, R54, R55). -/
def decode (pw : PortWord) : DecodeResult :=
  let v := pw.word.toNat
  if 2 ^ pw.port.width ≤ v then .reject (.wordTooWide pw.port)
  else
    match pw.port with
    | .req => decodeReq (bitField v 32 1) (addrField v)
    | .uop l => decodeUop l (bitField v 32 3) (addrField v)
    | .cfg l => .instr (.configure l (bitField v 64 32) (bitField v 32 32) (bitField v 0 32))
    | .rst l => .instr (.reset l)
    | .dec l => .instr (.decode l (addrField v))
    | .cmp l => .instr (.compose l (bitField v 32 32) (bitField v 0 32))

/-- The word of `hi ++ lo` with a 32-bit `lo`. -/
def word96 (hi lo : Nat) : BitVec 96 := BitVec.ofNat 96 (hi * 2 ^ 32 + lo)

/-- The word of a well-formed operation, and the port it belongs to, from the tables of R48, R54 and R55. -/
def encode : Instr → PortWord
  | .read a => ⟨.req, word96 0 a.toNat⟩
  | .write a => ⟨.req, word96 1 a.toNat⟩
  | .nop l a => ⟨.uop l, word96 0 a.toNat⟩
  | .probeRd l a => ⟨.uop l, word96 1 a.toNat⟩
  | .probeWr l a => ⟨.uop l, word96 2 a.toNat⟩
  | .vdirty l a => ⟨.uop l, word96 3 a.toNat⟩
  | .fill l a => ⟨.uop l, word96 4 a.toNat⟩
  | .vaddr l a => ⟨.uop l, word96 5 a.toNat⟩
  | .configure l b w c => ⟨.cfg l, word96 (b * 2 ^ 32 + w) c⟩
  | .reset l => ⟨.rst l, 0⟩
  | .decode l a => ⟨.dec l, word96 0 a.toNat⟩
  | .compose l tag index => ⟨.cmp l, word96 tag index⟩

/-- The port at which a row of opcode_table.json is presented, from the number of bits the table gives it (in
whole bytes, or exactly). The table names no level: L1 is taken. Two formats share 40 bits, and `READ`/`NOP` and
`WRITE`/`PROBE_RD` share their patterns there: a word below 2^33 is taken as the requester's. The rows with an
empty pattern are taken as RESET's wire, whose word has no bits. DESIGN CHOICE, assumption 7. -/
def tablePort (nbits w : Nat) : Option Port :=
  match nbits with
  | 0 => some (.rst .l1)
  | 32 => some (.dec .l1)
  | 33 => some .req
  | 35 => some (.uop .l1)
  | 40 => if w < 2 ^ 33 then some .req else some (.uop .l1)
  | 64 => some (.cmp .l1)
  | 96 => some (.cfg .l1)
  | _ => none

/-- The port word of a row of opcode_table.json; none where no format has that many bits or the word is wider
than it. -/
def tableWord (nbits w : Nat) : Option PortWord :=
  if 2 ^ nbits ≤ w then none
  else (tablePort nbits w).map fun p => ⟨p, BitVec.ofNat 96 w⟩

/-- The operation the decoder reads from a row's word. -/
def decodeTableWord (nbits w : Nat) : Option Instr :=
  match tableWord nbits w with
  | none => none
  | some pw =>
    match decode pw with
    | .instr i => some i
    | .reject _ => none

end Sys2Proof
end

