-- ==== Sys2Proof/Machine/State.lean ====
section
/-! DEFINITION. The state of the block as plain data (10_state.md), the reasons a step can stop, and the state
after reset (R23). -/

namespace Sys2Proof.Machine

open Sys2Proof

/-- Which shape a level has, selected by `cfgWays` (R16, R63). -/
inductive Variant where
  | directMapped
  | setAssociative
  | fullyAssociative
  deriving DecidableEq, Repr

/-- The derived geometry registers of a level (R12), written by CONFIGURE. -/
structure Geometry where
  variant : Variant
  capacityBytes : Nat
  offsetBits : Nat
  indexBits : Nat
  tagBits : Nat
  /-- `S`, the number of sets. -/
  numSets : Nat
  /-- `W`, the lines of a set. -/
  numWays : Nat
  deriving DecidableEq, Repr

/-- A Line (R13). -/
structure Line where
  tag : Nat
  valid : Bool
  dirty : Bool
  deriving DecidableEq, Repr

/-- A CacheSet (R14): the lines by way number, and the `fillCursor`. A way that is not listed holds a line
that was never filled since the level's last reset: invalid, clean, its tag unspecified (R23, R24, assumption 13). -/
structure CacheSet where
  lines : List (Nat × Line)
  cur : Nat
  deriving DecidableEq, Repr

/-- Every set after RESET (R23, R115). -/
def CacheSet.fresh : CacheSet := { lines := [], cur := 0 }

/-- A CacheLevel (R15): its configuration registers, its geometry registers, `cfg_ok`, and its sets by set
number. A set that is not listed is `CacheSet.fresh`. A level that does not exist (`cfgOk = false`, R109) holds
zeros and no set. `epoch` is the model's own counter: the number of resets of this level, which the free value of
a never-filled line's tag is drawn from (assumption 3). -/
structure CacheLevel where
  cfg : CfgIn
  geom : Geometry
  cfgOk : Bool
  sets : List (Nat × CacheSet)
  epoch : Nat
  deriving DecidableEq, Repr

/-- The result of an access at one level (R19). -/
inductive AccessState where
  | noAction
  | readHit
  | readMiss
  | writeHit
  | writeMiss
  deriving DecidableEq, Repr

/-- The reasons of ConfigError (R103); R103's code 0 is the absence of one. -/
inductive ConfigReason where
  | blockNotPow2
  | capNotPow2
  | waysNotPow2
  | setsNotIntegral
  | tagNegative
  deriving DecidableEq, Repr

/-- What ConfigError records (R102): the level and the reason. -/
structure ConfigError where
  level : LevelId
  reason : ConfigReason
  deriving DecidableEq, Repr

/-- The reply of a level to a UOP35 command (R55). -/
structure Reply where
  flag : Bool
  vaddr : Address
  deriving DecidableEq, Repr

/-- The three fields an address decomposes into (R57, R69). -/
structure AddrFields where
  tag : Nat
  index : Nat
  offset : Nat
  deriving DecidableEq, Repr

/-- Why the machine stops with a fault. No operation of the block raises one: "No synchronous exception exists
during an access" (R106), and ConfigError is a state, not a stop (R109, assumption 5). -/
inductive Fault where
  /-- Raised by the CONSUMER of a response word (`consumeRsp6`), never by `exec` or `step`: the word holds a code
  5 to 7 or a pair the block cannot produce (R59 b, decision D20, U12, assumption 12). Safe. -/
  | impossibleResponse
  deriving DecidableEq, Repr

/-- Why the machine has no meaning for what is presented. -/
inductive Refusal where
  /-- Raised by an arm of `exec` for an operation without a meaning yet; no arm does. Safe. -/
  | notModelled (mnemonic : String)
  /-- Raised by an operation of a level that was not constructed: no such level exists (R109, U6,
  assumption 11). Safe. -/
  | levelNotConstructed (l : LevelId)
  /-- Raised by CONFIGURE of a level that is constructed: a geometry is "immutable after construction", and a change of
  it is refused (R120, U10; 20_memory.md R44, decision D1). Safe. -/
  | alreadyConstructed (l : LevelId)
  /-- Raised by READ and WRITE while not both levels are constructed: the request port accepts nothing
  (R102, R109, R117, assumption 11). Safe. -/
  | blockNotConstructed
  /-- Raised by `runWord`, and so by `step`, for a word that is no operation: reserved codes (R59 c, U11) and words wider
  than the port. Safe. -/
  | illegalWord (e : DecodeError)
  deriving DecidableEq, Repr

/-- The state of the block, `(cfg[L1], cfg[L2], L1, L2)` (R10), and what passes between it and its environment:
the construction outcome (R102), the values its operations return (R9, R19, R55, R69, R71), and what will be presented to
it (R124, R29). -/
structure State where
  l1 : CacheLevel
  l2 : CacheLevel
  /-- The error reported to the constructor, if construction failed (R102, R109). -/
  cfgError : Option ConfigError
  /-- `L1State` of the last access (R19). -/
  l1State : AccessState
  /-- `L2State` of the last access (R19). -/
  l2State : AccessState
  /-- L1's last reply to a UOP35 word (R55). -/
  l1Reply : Reply
  /-- L2's last reply to a UOP35 word (R55). -/
  l2Reply : Reply
  /-- The last result of DECODE (R69). -/
  decoded : AddrFields
  /-- The last result of COMPOSE (R71). -/
  composed : Address
  /-- The model's own: what the environment does from now on, the next one first. The position in the trace belongs to
  the requester (R21); the block has no queue (R119). Assumption 2. -/
  inputs : List Interaction
  /-- The model's own: words that a test bench drives at ports inside the block, the next one first, in place of the
  constructor and the controller (R29: each level "can be modelled and tested alone"; R118: "anyone driving a CacheLevel
  directly (a unit test), not ... the requester"). Empty in every run: neither the block nor the environment adds to it.
  Assumption 9. -/
  bench : List PortWord
  deriving DecidableEq, Repr

/-- A level of the block. -/
def State.level (s : State) : LevelId → CacheLevel
  | .l1 => s.l1
  | .l2 => s.l2

/-- The machine right after reset: both levels constructed with the configurations `Config.resetCfgL1` and
`Config.resetCfgL2` (assumption 1; the geometry registers are those of 95_test_vectors.md T1 and T2), no line
valid, every cursor 0, both results `NoAction` (R23), and nothing presented. -/
def State.reset : State where
  l1 :=
    { cfg := Config.resetCfgL1
      geom := { variant := .directMapped, capacityBytes := 8192, offsetBits := 5, indexBits := 8, tagBits := 19,
                numSets := 256, numWays := 1 }
      cfgOk := true
      sets := []
      epoch := 0 }
  l2 :=
    { cfg := Config.resetCfgL2
      geom := { variant := .setAssociative, capacityBytes := 65536, offsetBits := 5, indexBits := 9, tagBits := 18,
                numSets := 512, numWays := 4 }
      cfgOk := true
      sets := []
      epoch := 0 }
  cfgError := none
  l1State := .noAction
  l2State := .noAction
  l1Reply := { flag := false, vaddr := 0 }
  l2Reply := { flag := false, vaddr := 0 }
  decoded := { tag := 0, index := 0, offset := 0 }
  composed := 0
  inputs := []
  bench := []

end Sys2Proof.Machine
end

