-- ==== Sys2Proof/Machine/Flags.lean ====
section
/-! DEFINITION. The results of the block and their codes (30_encoding.md R49 to R51, R55, R103). The block has no
flag register: its status values are outputs (10_state.md R19). -/

namespace Sys2Proof.Machine

open Sys2Proof

/-- The AccessState codes (R49). -/
def stateCode : AccessState → Nat
  | .noAction => 0
  | .readHit => 1
  | .readMiss => 2
  | .writeHit => 3
  | .writeMiss => 4

/-- The state of a code; none for 5, 6 and 7 (R50). -/
def stateOfCode : Nat → Option AccessState
  | 0 => some .noAction
  | 1 => some .readHit
  | 2 => some .readMiss
  | 3 => some .writeHit
  | 4 => some .writeMiss
  | _ => none

/-- The response word `RSP6` (R50): `l1_state` in bits 5:3, `l2_state` in bits 2:0. -/
def rsp6 (x1 x2 : AccessState) : BitVec 6 := BitVec.ofNat 6 (stateCode x1 * 8 + stateCode x2)

/-- The response of the last access. -/
def State.rsp6 (s : State) : BitVec 6 := Sys2Proof.Machine.rsp6 s.l1State s.l2State

/-- The six result pairs of R96. -/
def legalPair : AccessState → AccessState → Bool
  | .readHit, .noAction => true
  | .readMiss, .readHit => true
  | .readMiss, .readMiss => true
  | .writeHit, .noAction => true
  | .writeMiss, .writeHit => true
  | .writeMiss, .writeMiss => true
  | _, _ => false

/-- A consumer of a response word: it "should treat it as a fault" when it meets a code 5 to 7 or a pair outside
the six (R59 b). -/
def consumeRsp6 (w : BitVec 6) : Except Fault (AccessState × AccessState) :=
  match stateOfCode (bitField w.toNat 3 3), stateOfCode (bitField w.toNat 0 3) with
  | some x1, some x2 => if legalPair x1 x2 then .ok (x1, x2) else .error .impossibleResponse
  | _, _ => .error .impossibleResponse

/-- A decimal digit. -/
def digit (n : Nat) : Char := Char.ofNat (48 + n)

/-- The output line of an access (R51): the digit of `L1State`, one space, the digit of `L2State`. -/
def outputLine (x1 x2 : AccessState) : List Char := [digit (stateCode x1), ' ', digit (stateCode x2)]

/-- The reply word `URSP33` (R55): `flag` in bit 32, `vaddr` in bits 31:0. -/
def Reply.word (r : Reply) : BitVec 33 := BitVec.ofNat 33 ((if r.flag then 1 else 0) * 2 ^ 32 + r.vaddr.toNat)

/-- The reply of a probe or of VDIRTY: the boolean result, `vaddr` 0 (R55). -/
def Reply.ofFlag (b : Bool) : Reply := { flag := b, vaddr := 0 }

/-- The reply of VADDR: `flag` 0 and the victim's address (R55). -/
def Reply.ofVaddr (a : Address) : Reply := { flag := false, vaddr := a }

/-- The reply of NOP and FILL: `flag` 0, `vaddr` 0 (R55). -/
def Reply.zero : Reply := { flag := false, vaddr := 0 }

/-- The code of a construction outcome (R103): 0 is `cfg_ok`. -/
def reasonCode : Option ConfigReason → Nat
  | none => 0
  | some .blockNotPow2 => 1
  | some .capNotPow2 => 2
  | some .waysNotPow2 => 3
  | some .setsNotIntegral => 4
  | some .tagNegative => 5

end Sys2Proof.Machine
end

