-- ==== Sys2Proof/Machine/Operands.lean ====
section
/-! DEFINITION. Operand assembly (30_encoding.md R58): the fields of an address and back, the geometry derived
from the three configuration inputs and its validation, and the write-back multiplexer. All arithmetic is on
natural numbers (40_geometry_decoder.md R61). -/

namespace Sys2Proof.Machine

open Sys2Proof

/-- `isPow2(n)` of R8: `n >= 1` with exactly one 1 bit, that is `n` is 2 to its own logarithm; false of 0. -/
def isPow2 (n : Nat) : Bool := n != 0 && 2 ^ Nat.log2 n == n

/-- The variant `cfgWays` selects (R63). -/
def variantOf (ways : Nat) : Variant :=
  match ways with
  | 0 => .fullyAssociative
  | 1 => .directMapped
  | _ => .setAssociative

/-- `capacityBytes = capacityKB * 1024` (R62). -/
def capacityBytesOf (c : CfgIn) : Nat := c.capacityKB * 1024

/-- `S`, the number of sets: 1 for a fully-associative level (R65), else
`capacityBytes / (blockSizeBytes * cfgWays)` (R64). -/
def numSetsOf (c : CfgIn) : Nat :=
  if c.ways = 0 then 1 else capacityBytesOf c / (c.blockSizeBytes * c.ways)

/-- `W`, the lines of a set: `capacityBytes / blockSizeBytes` for a fully-associative level (R65), else
`cfgWays` (R64). -/
def numWaysOf (c : CfgIn) : Nat :=
  if c.ways = 0 then capacityBytesOf c / c.blockSizeBytes else c.ways

/-- The geometry of a valid configuration (R64, R65). -/
def deriveGeometry (c : CfgIn) : Geometry :=
  let offsetBits := Nat.log2 c.blockSizeBytes
  let indexBits := Nat.log2 (numSetsOf c)
  { variant := variantOf c.ways
    capacityBytes := capacityBytesOf c
    offsetBits := offsetBits
    indexBits := indexBits
    tagBits := Config.addrWidth - indexBits - offsetBits
    numSets := numSetsOf c
    numWays := numWaysOf c }

/-- Check V4 of R66: `S`, or `W` of a fully-associative level, is at least 1. -/
def setsIntegral (c : CfgIn) : Bool :=
  if c.ways = 0 then decide (c.blockSizeBytes ≤ capacityBytesOf c)
  else decide (c.blockSizeBytes * c.ways ≤ capacityBytesOf c)

/-- The checks V1 to V5 of R66 in their order; the reason of the first that fails, none when all pass. V6 cannot
fail once they do. -/
def validate (c : CfgIn) : Option ConfigReason :=
  if !isPow2 c.blockSizeBytes then some .blockNotPow2
  else if !isPow2 c.capacityKB then some .capNotPow2
  else if !(c.ways == 0 || isPow2 c.ways) then some .waysNotPow2
  else if !setsIntegral c then some .setsNotIntegral
  else if Config.addrWidth < Nat.log2 (numSetsOf c) + Nat.log2 c.blockSizeBytes then some .tagNegative
  else none

/-- `DECODE(address)` (R69): tag, index and offset, from the most significant end (R57). -/
def Geometry.fieldsOf (g : Geometry) (a : Address) : AddrFields :=
  { tag := bitField a.toNat (g.offsetBits + g.indexBits) (Config.addrWidth - (g.offsetBits + g.indexBits))
    index := bitField a.toNat g.offsetBits g.indexBits
    offset := bitField a.toNat 0 g.offsetBits }

/-- The operands R71 states a result for. -/
def Geometry.composable (g : Geometry) (tag index : Nat) : Bool :=
  decide (tag < 2 ^ g.tagBits) && decide (index < 2 ^ g.indexBits)

/-- `COMPOSE(tag, index)` (R71): `tag ++ index ++ zeros(offsetBits)`. Outside the operands R71 states a result
for, the free value `Config.composeOutOfRange` (assumption 4). -/
def Geometry.composeOf (g : Geometry) (tag index : Nat) : Address :=
  if g.composable tag index then
    BitVec.ofNat 32 (tag * 2 ^ (g.indexBits + g.offsetBits) + index * 2 ^ g.offsetBits)
  else Config.composeOutOfRange g.indexBits g.offsetBits tag index

/-- The select of the write-back multiplexer (R56): `REQ` is code 0, `VICTIM` code 1. -/
inductive WbSel where
  | req
  | victim
  deriving DecidableEq, Repr

/-- The code of `wb_sel` (R56). -/
def wbSelCode : WbSel → Nat
  | .req => 0
  | .victim => 1

/-- The write-back protocol multiplexer (R93): the address presented to L2. -/
def wbMux (sel : WbSel) (incoming victim : Address) : Address :=
  match sel with
  | .req => incoming
  | .victim => victim

end Sys2Proof.Machine
end

