-- ==== Sys2Proof/Machine/Ops.lean ====
section
/-! DEFINITION. The operations over the tag arrays and the state that the meanings share: the sparse arrays in
their canonical form, SELECT and MATCH (R75, R76), the operations of one level (R78 to R82, R115), construction and
ConfigError (R68, R102, R109), the two accesses (R89, R90), and what is presented to the block. -/

namespace Sys2Proof.Machine

open Sys2Proof

/-! ### Sparse arrays: pairs of a key and a value, the keys strictly rising -/

/-- The value listed for a key. -/
def lookup {α : Type} (k : Nat) : List (Nat × α) → Option α
  | [] => none
  | e :: t => if e.1 = k then some e.2 else lookup k t

/-- List `v` for the key `k`, at its place. -/
def insertKey {α : Type} (k : Nat) (v : α) : List (Nat × α) → List (Nat × α)
  | [] => [(k, v)]
  | e :: t => if k < e.1 then (k, v) :: e :: t else if k = e.1 then (k, v) :: t else e :: insertKey k v t

/-- List nothing for the key `k`. -/
def eraseKey {α : Type} (k : Nat) (m : List (Nat × α)) : List (Nat × α) := m.filter fun e => e.1 != k

/-- The keys rise strictly, and are all above `lo` where a bound is given. -/
def risingFrom {α : Type} (lo : Option Nat) : List (Nat × α) → Bool
  | [] => true
  | e :: t => (match lo with | none => true | some b => decide (b < e.1)) && risingFrom (some e.1) t

/-- The canonical order of a sparse array: the keys rise strictly. -/
def keysRising {α : Type} (m : List (Nat × α)) : Bool := risingFrom none m

/-! ### Sets and lines -/

/-- `L.set[s]` (R15). -/
def CacheLevel.setAt (c : CacheLevel) (s : Nat) : CacheSet := (lookup s c.sets).getD CacheSet.fresh

/-- Write the set number `s`. A set equal to what an unlisted one reads as is not listed. -/
def CacheLevel.putSet (c : CacheLevel) (s : Nat) (x : CacheSet) : CacheLevel :=
  { c with sets := if x = CacheSet.fresh then eraseKey s c.sets else insertKey s x c.sets }

/-- The line of a way that was not filled since reset: invalid and clean (R23), its tag unspecified (R24,
assumption 3). -/
def CacheLevel.unwrittenLine (c : CacheLevel) (l : LevelId) (s w : Nat) : Line :=
  { tag := Config.unwrittenTag c.epoch l s w % 2 ^ c.geom.tagBits, valid := false, dirty := false }

/-- `L.line[s][w]` (R15). The level's name is needed for the free tag of a never-filled line only. -/
def CacheLevel.lineAt (c : CacheLevel) (l : LevelId) (s w : Nat) : Line :=
  (lookup w (c.setAt s).lines).getD (c.unwrittenLine l s w)

/-- `L.cur[s]` (R15). -/
def CacheLevel.curAt (c : CacheLevel) (s : Nat) : Nat := (c.setAt s).cur

/-! ### The canonical form of the arrays -/

/-- A set of a level with the geometry `g` (R14, R25): its listed ways are ways of the set, in order, and hold
valid lines with a tag of `tagBits` bits; the cursor is a way of the set. -/
def CacheSet.wf (g : Geometry) (x : CacheSet) : Bool :=
  keysRising x.lines &&
  x.lines.all (fun e => decide (e.1 < g.numWays) && e.2.valid && decide (e.2.tag < 2 ^ g.tagBits)) &&
  decide (x.cur < g.numWays)

/-- The tag array of a level is in canonical form: the listed sets are sets of the level, in order, none of them
equal to what an unlisted set reads as. -/
def CacheLevel.arrayWf (c : CacheLevel) : Bool :=
  keysRising c.sets && c.sets.all (fun e => decide (e.1 < c.geom.numSets) && decide (e.2 ≠ CacheSet.fresh) && e.2.wf c.geom)

/-- The block's memory, the tag arrays of its two levels, is in canonical form. -/
def Memory.wf (s : State) : Bool := s.l1.arrayWf && s.l2.arrayWf

/-! ### SELECT and MATCH -/

/-- `DECODE` at a level (R69). -/
def CacheLevel.fieldsOf (c : CacheLevel) (a : Address) : AddrFields := c.geom.fieldsOf a

/-- The set number `SELECT(address)` gives (R75). -/
def CacheLevel.selectSet (c : CacheLevel) (a : Address) : Nat := (c.fieldsOf a).index

/-- The victim slot `SELECT(address)` gives (R75): the way number `fillCursor` of the selected set. -/
def CacheLevel.selectVictim (c : CacheLevel) (a : Address) : Nat := c.curAt (c.selectSet a)

/-- `m[w]` of `MATCH` for a listed way of a set with `ways` ways (R76): a way of the set that holds a valid line
with the tag. A way that is not listed holds an invalid line and never matches. -/
def matchEntry (ways tag : Nat) (e : Nat × Line) : Bool :=
  decide (e.1 < ways) && (e.2.valid && e.2.tag == tag)

/-- `hit` of `MATCH(address)` (R76). -/
def CacheLevel.matchHit (c : CacheLevel) (a : Address) : Bool :=
  (c.setAt (c.selectSet a)).lines.any (matchEntry c.geom.numWays (c.fieldsOf a).tag)

/-! ### The operations of one level -/

/-- Set the dirty bit of the first listed line that `p` holds of. -/
def dirtyFirst (p : Nat × Line → Bool) : List (Nat × Line) → List (Nat × Line)
  | [] => []
  | e :: t => if p e then (e.1, { e.2 with dirty := true }) :: t else e :: dirtyFirst p t

/-- Set the dirty bit of every listed line that `p` holds of. -/
def dirtyEvery (p : Nat × Line → Bool) (m : List (Nat × Line)) : List (Nat × Line) :=
  m.map fun e => if p e then (e.1, { e.2 with dirty := true }) else e

/-- Set the dirty bits of the matching lines: of the lowest-numbered way only (the ways are listed in rising
order), or of all, as `MULTI_MATCH` says (R84). -/
def dirtyMatching (mm : MultiMatch) (p : Nat × Line → Bool) (m : List (Nat × Line)) : List (Nat × Line) :=
  match mm with
  | .lowest => dirtyFirst p m
  | .all => dirtyEvery p m

/-- `PROBE_RD(address)` (R78). -/
def CacheLevel.probeRd (c : CacheLevel) (a : Address) : Bool := c.matchHit a

/-- The level after `PROBE_WR(address)` (R79): on a hit the matching line is dirty, on a miss nothing changes. -/
def CacheLevel.probeWr (mm : MultiMatch) (c : CacheLevel) (a : Address) : CacheLevel :=
  if c.matchHit a then
    let x := c.setAt (c.selectSet a)
    c.putSet (c.selectSet a)
      { x with lines := dirtyMatching mm (matchEntry c.geom.numWays (c.fieldsOf a).tag) x.lines }
  else c

/-- `VDIRTY(address)` (R80): the dirty bit of the victim slot; a line never filled is clean. -/
def CacheLevel.vdirty (c : CacheLevel) (a : Address) : Bool :=
  match lookup (c.selectVictim a) (c.setAt (c.selectSet a)).lines with
  | none => false
  | some ln => ln.dirty

/-- The level after `FILL(address)` (R81): the victim slot holds the address's tag, valid and clean, and the cursor
advances round-robin. -/
def CacheLevel.fill (c : CacheLevel) (a : Address) : CacheLevel :=
  let s := c.selectSet a
  let v := c.selectVictim a
  c.putSet s
    { lines := insertKey v { tag := (c.fieldsOf a).tag, valid := true, dirty := false } (c.setAt s).lines
      cur := (v + 1) % c.geom.numWays }

/-- `VADDR(address)` (R82): the address of the line in the victim slot. For a line never filled its tag field is
unspecified and its index and offset fields are defined (decision D13, assumption 3). -/
def CacheLevel.vaddr (l : LevelId) (c : CacheLevel) (a : Address) : Address :=
  c.geom.composeOf (c.lineAt l (c.selectSet a) (c.selectVictim a)).tag (c.selectSet a)

/-- The level after `RESET(level)` (R115): no line valid, none dirty, every cursor 0. The tags are not written and
are unspecified from here on: the counter of their free values advances. -/
def CacheLevel.clear (c : CacheLevel) : CacheLevel := { c with sets := [], epoch := c.epoch + 1 }

/-! ### Construction -/

/-- A level that does not exist (R109): no configuration, no geometry, no set. -/
def CacheLevel.absent (epoch : Nat) : CacheLevel where
  cfg := { blockSizeBytes := 0, ways := 0, capacityKB := 0 }
  geom := { variant := .fullyAssociative, capacityBytes := 0, offsetBits := 0, indexBits := 0, tagBits := 0,
            numSets := 0, numWays := 0 }
  cfgOk := false
  sets := []
  epoch := epoch

/-- The level a valid configuration constructs (R68): the registers, `cfg_ok`, then RESET. -/
def CacheLevel.construct (c : CacheLevel) (cfg : CfgIn) : CacheLevel :=
  CacheLevel.clear { c with cfg := cfg, geom := deriveGeometry cfg, cfgOk := true }

/-! ### The state -/

/-- The state with another level. -/
def State.setLevel (s : State) (l : LevelId) (c : CacheLevel) : State :=
  match l with
  | .l1 => { s with l1 := c }
  | .l2 => { s with l2 := c }

/-- The state with a level's reply (R55). -/
def State.setReply (s : State) (l : LevelId) (r : Reply) : State :=
  match l with
  | .l1 => { s with l1Reply := r }
  | .l2 => { s with l2Reply := r }

/-- A level's last reply (R55). -/
def State.reply (s : State) : LevelId → Reply
  | .l1 => s.l1Reply
  | .l2 => s.l2Reply

/-- The state with the result pair of an access (R19). -/
def State.setResults (s : State) (x1 x2 : AccessState) : State := { s with l1State := x1, l2State := x2 }

/-- Both levels were constructed, so the block serves accesses (R117). -/
def State.constructed (s : State) : Bool := s.l1.cfgOk && s.l2.cfgOk

/-- The construction under way has already failed at L1: its error is the one reported (R103) and the block is
inert (R109). -/
def State.l1Failed (s : State) : Bool :=
  match s.cfgError with
  | none => false
  | some e => e.level == .l1

/-- Taking ConfigError, the block's one exception (R102, R109): "Construction fails as a whole: neither level has
any line or cursor state", `cfg_ok` is false, and the level and the reason are recorded. There is no return from it
(R110). -/
def State.raiseConfigError (s : State) (l : LevelId) (r : ConfigReason) : State :=
  { s with
    l1 := CacheLevel.absent s.l1.epoch
    l2 := CacheLevel.absent s.l2.epoch
    cfgError := some { level := l, reason := r } }

/-- The construction of one level (R68); success is reported to the constructor as no error (R124), and after construction
both results are `NoAction` (R23). -/
def State.constructLevel (s : State) (l : LevelId) (cfg : CfgIn) : State :=
  { s.setLevel l ((s.level l).construct cfg) with cfgError := none, l1State := .noAction, l2State := .noAction }

/-- Run an operation of a level. Without the level there is nothing to run it on (R109, U6). -/
def State.onLevel (s : State) (l : LevelId) (k : CacheLevel → State) : Host.Outcome State Fault Refusal :=
  if (s.level l).cfgOk then .next (k (s.level l)) else .refused (.levelNotConstructed l)

/-! ### The two accesses -/

/-- What an access leaves: both levels, and its result pair (R88). -/
structure AccessResult where
  l1 : CacheLevel
  l2 : CacheLevel
  l1State : AccessState
  l2State : AccessState
  deriving DecidableEq, Repr

/-- `READ a` on the two levels, in the steps of R89 and R92. -/
def readAccess (c1 c2 : CacheLevel) (a : Address) : AccessResult :=
  let l1Hit := c1.probeRd a
  if l1Hit then { l1 := c1, l2 := c2, l1State := .readHit, l2State := .noAction }
  else
    let l1Dirty := c1.vdirty a
    let victimAddr := c1.vaddr .l1 a
    let l2Hit := c2.probeRd (wbMux .req a victimAddr)
    let c2a := if l2Hit then c2 else c2.fill (wbMux .req a victimAddr)
    let c2b := if l1Dirty then c2a.fill (wbMux .victim a victimAddr) else c2a
    { l1 := c1.fill a
      l2 := c2b
      l1State := .readMiss
      l2State := if l2Hit then .readHit else .readMiss }

/-- `WRITE a` on the two levels, in the steps of R90 and R92, for a value of `MULTI_MATCH`. -/
def writeAccess (mm : MultiMatch) (c1 c2 : CacheLevel) (a : Address) : AccessResult :=
  let l1Hit := c1.matchHit a
  if l1Hit then { l1 := c1.probeWr mm a, l2 := c2, l1State := .writeHit, l2State := .noAction }
  else
    let l2Hit := c2.matchHit a
    { l1 := c1.probeWr mm a
      l2 := c2.probeWr mm a
      l1State := .writeMiss
      l2State := if l2Hit then .writeHit else .writeMiss }

/-- Serve an access (R88): only when both levels are constructed (R109, R117). -/
def State.serve (s : State) (k : CacheLevel → CacheLevel → AccessResult) : Host.Outcome State Fault Refusal :=
  if s.constructed then
    let r := k s.l1 s.l2
    .next ({ s with l1 := r.l1, l2 := r.l2 }.setResults r.l1State r.l2State)
  else .refused .blockNotConstructed

/-! ### Operations one after another, and what is presented -/

/-- Go on from the next state an operation answers. -/
def andThen (o : Host.Outcome State Fault Refusal) (k : State → Host.Outcome State Fault Refusal) :
    Host.Outcome State Fault Refusal :=
  match o with
  | .next s => k s
  | .fault f => .fault f
  | .refused r => .refused r

/-- The block before its construction (R18, R117): no level exists, no error is recorded, and nothing has survived from a
run before (R114). -/
def State.unbuilt (s : State) : State :=
  { State.reset with
    l1 := CacheLevel.absent s.l1.epoch
    l2 := CacheLevel.absent s.l2.epoch
    inputs := s.inputs
    bench := s.bench }

/-- The environment's next interaction before all others. -/
def State.present (s : State) (i : Interaction) : State := { s with inputs := i :: s.inputs }

/-- The test bench's next word before all others. -/
def State.drive (s : State) (pw : PortWord) : State := { s with bench := pw :: s.bench }

end Sys2Proof.Machine
end

