-- ==== Sys2Proof/Machine/Access.lean ====
section
/-! DEFINITION. The two access commands of the HierarchyController (42_hierarchy_controller.md). -/

namespace Sys2Proof.Machine

open Sys2Proof

/-- `READ a` (R89). -/
def execRead (a : Address) (s : State) : Host.Outcome State Fault Refusal :=
  s.serve fun c1 c2 => readAccess c1 c2 a

/-- `WRITE a` (R90). -/
def execWrite (a : Address) (s : State) : Host.Outcome State Fault Refusal :=
  s.serve fun c1 c2 => writeAccess Config.multiMatch c1 c2 a

end Sys2Proof.Machine
end

