-- ==== Sys2Proof/Machine/Construction.lean ====
section
/-! DEFINITION. The construction operations, CONFIGURE (40_geometry_decoder.md R68) and RESET
(70_reset_and_hazards.md R115). -/

namespace Sys2Proof.Machine

open Sys2Proof

/-- `CONFIGURE(level, blockSizeBytes, cfgWays, capacityKB)` (R68). A level that exists keeps its geometry, "immutable
after construction": CONFIGURE of it is refused (R120, U10, assumption 10). A configuration that fails a check of R66 raises
ConfigError. L2's configuration comes after L1's (R117): once L1's has failed, construction has failed as a whole, L1's error stays the
one reported (R103) and the block is inert (R109), so L2's word changes nothing (assumption 5). After ConfigError no level
exists, and CONFIGURE begins a new construction (R110). -/
def execConfigure (l : LevelId) (blockSizeBytes ways capacityKB : Nat) (s : State) :
    Host.Outcome State Fault Refusal :=
  let cfg : CfgIn := { blockSizeBytes := blockSizeBytes, ways := ways, capacityKB := capacityKB }
  if (s.level l).cfgOk then .refused (.alreadyConstructed l)
  else if l == .l2 && s.l1Failed then .next s
  else
    match validate cfg with
    | some r => .next (s.raiseConfigError l r)
    | none => .next (s.constructLevel l cfg)

/-- `RESET(level)` (R115), the last step of CONFIGURE; the environment has no move that issues it alone (R124). -/
def execReset (l : LevelId) (s : State) : Host.Outcome State Fault Refusal :=
  s.onLevel l fun c => s.setLevel l c.clear

end Sys2Proof.Machine
end

