-- ==== Sys2Proof/Machine/Decoder.lean ====
section
/-! DEFINITION. The two combinational functions of a level, DECODE and COMPOSE (40_geometry_decoder.md R69, R71). -/

namespace Sys2Proof.Machine

open Sys2Proof

/-- `DECODE(address) -> (tag, index, offset)` (R69). -/
def execDecode (l : LevelId) (a : Address) (s : State) : Host.Outcome State Fault Refusal :=
  s.onLevel l fun c => { s with decoded := c.fieldsOf a }

/-- `COMPOSE(tag, index) -> address` (R71). -/
def execCompose (l : LevelId) (tag index : Nat) (s : State) : Host.Outcome State Fault Refusal :=
  s.onLevel l fun c => { s with composed := c.geom.composeOf tag index }

end Sys2Proof.Machine
end

