-- ==== Sys2Proof/Machine/Level.lean ====
section
/-! DEFINITION. The operations of one cache level as commands of its UOP35 port (41_cache_level.md). The reply of R55
is the level's last reply. -/

namespace Sys2Proof.Machine

open Sys2Proof

/-- `NOP` (R77): nothing; the reply is zeros. It uses nothing of the level, so it needs no level. -/
def execNop (l : LevelId) (_a : Address) (s : State) : Host.Outcome State Fault Refusal :=
  .next (s.setReply l Reply.zero)

/-- `PROBE_RD` (R78). -/
def execProbeRd (l : LevelId) (a : Address) (s : State) : Host.Outcome State Fault Refusal :=
  s.onLevel l fun c => s.setReply l (Reply.ofFlag (c.probeRd a))

/-- `PROBE_WR` (R79). -/
def execProbeWr (l : LevelId) (a : Address) (s : State) : Host.Outcome State Fault Refusal :=
  s.onLevel l fun c => (s.setLevel l (c.probeWr Config.multiMatch a)).setReply l (Reply.ofFlag (c.matchHit a))

/-- `VDIRTY` (R80). -/
def execVdirty (l : LevelId) (a : Address) (s : State) : Host.Outcome State Fault Refusal :=
  s.onLevel l fun c => s.setReply l (Reply.ofFlag (c.vdirty a))

/-- `FILL` (R81). -/
def execFill (l : LevelId) (a : Address) (s : State) : Host.Outcome State Fault Refusal :=
  s.onLevel l fun c => (s.setLevel l (c.fill a)).setReply l Reply.zero

/-- `VADDR` (R82). -/
def execVaddr (l : LevelId) (a : Address) (s : State) : Host.Outcome State Fault Refusal :=
  s.onLevel l fun c => s.setReply l (Reply.ofVaddr (c.vaddr l a))

end Sys2Proof.Machine
end

