-- ==== Sys2Proof/Machine/Dispatch.lean ====
section
/-! DEFINITION. The meaning of every operation: one arm per constructor. -/

namespace Sys2Proof.Machine

def exec (i : Instr) (s : State) : Host.Outcome State Fault Refusal :=
  match i with
  | .read a => Sys2Proof.Machine.execRead a s
  | .write a => Sys2Proof.Machine.execWrite a s
  | .nop l a => Sys2Proof.Machine.execNop l a s
  | .probeRd l a => Sys2Proof.Machine.execProbeRd l a s
  | .probeWr l a => Sys2Proof.Machine.execProbeWr l a s
  | .vdirty l a => Sys2Proof.Machine.execVdirty l a s
  | .fill l a => Sys2Proof.Machine.execFill l a s
  | .vaddr l a => Sys2Proof.Machine.execVaddr l a s
  | .configure l blockSizeBytes ways capacityKB => Sys2Proof.Machine.execConfigure l blockSizeBytes ways capacityKB s
  | .reset l => Sys2Proof.Machine.execReset l s
  | .decode l a => Sys2Proof.Machine.execDecode l a s
  | .compose l tag index => Sys2Proof.Machine.execCompose l tag index s

end Sys2Proof.Machine
end

