-- ==== Sys2Proof/Machine/Environment.lean ====
section
/-! DEFINITION. What a word at a port and an interaction of the environment do (70_reset_and_hazards.md R124). -/

namespace Sys2Proof.Machine

open Sys2Proof

/-- Run the operation a word at a port stands for; a word that is no operation is refused (R59 c). -/
def runWord (pw : PortWord) (s : State) : Host.Outcome State Fault Refusal :=
  match decode pw with
  | .instr i => exec i s
  | .reject e => .refused (.illegalWord e)

/-- The construction of the block from two configuration words, L1's then L2's (R117). On a block that is constructed it
is refused: it happens "once per run, before any access" (R124, R116, U10). -/
def State.construct (w1 w2 : BitVec 96) (s : State) : Host.Outcome State Fault Refusal :=
  andThen (runWord ⟨.cfg .l1, w1⟩ s) (runWord ⟨.cfg .l2, w2⟩)

/-- An access through the request port (R48, R88). -/
def State.access (w : BitVec 33) (s : State) : Host.Outcome State Fault Refusal := runWord ⟨.req, w.setWidth 96⟩ s

/-- The block's side of an interaction. -/
def interact : Interaction → State → Host.Outcome State Fault Refusal
  | .construct w1 w2, s => s.construct w1 w2
  | .access w, s => s.access w

/-- The reset input of R116 and decision D15, for a hardware that builds one: asserted, it "applies rule R115 to both
levels ... and samples the configuration words then", so that a new run begins. It is no move of the environment: the table
of R124 has none, and U9 refuses a reset other than at construction; no step calls it (assumption 10). -/
def State.resetInput (w1 w2 : BitVec 96) (s : State) : Host.Outcome State Fault Refusal := s.unbuilt.construct w1 w2

end Sys2Proof.Machine
end

