-- ==== Sys2Proof/Machine/Step.lean ====
section
/-! DEFINITION. One step: the environment interacts with the block, and the block runs what that asks for. -/

namespace Sys2Proof.Machine

open Sys2Proof

/-- The block takes the environment's next interaction, one at a time and in order (R9, R119, R124). With nothing
presented nothing happens: the block "never initiates an interaction" (R124), and at the end of a run there is "no state
change" (R99). While a test bench drives the ports inside the block (never in a run, assumption 9), its next word is run
instead. -/
def step (s : State) : Host.Outcome State Fault Refusal :=
  match s.bench with
  | pw :: rest => runWord pw { s with bench := rest }
  | [] =>
    match s.inputs with
    | i :: rest => interact i { s with inputs := rest }
    | [] => .next s

/-- The word of a row of opcode_table.json made the next one that runs. A request word is presented by the environment,
with no test bench at work. Any other word belongs to a port inside the block and is driven there by a test bench; a
configuration word needs a block that is not constructed yet (R120), so it is driven on one. Assumptions 2, 7 and 9. -/
def State.withFetchWord (s : State) (nbits w : Nat) : State :=
  match tableWord nbits w with
  | none => s
  | some pw =>
    match pw.port with
    | .req => { s with bench := [] }.present (.access (pw.word.setWidth 33))
    | .cfg _ => s.unbuilt.drive pw
    | .uop _ | .rst _ | .dec _ | .cmp _ => s.drive pw

end Sys2Proof.Machine
end

