-- ==== Sys2Proof/Safety.lean ====
section
/-! DEFINITION. What claims about the block say: its invariant (10_state.md R25), a legal run (70_reset_and_hazards.md
R124), sequences of operations, the access commands as the controller sequences them (42_hierarchy_controller.md R92),
and what an observer of the results sees (R28). -/

namespace Sys2Proof

/-- An operation of one level alone, or none (R29): everything but the accesses, CONFIGURE and RESET. -/
def Instr.isLevelOp : Instr → Bool
  | .read _ | .write _ | .configure _ _ _ _ | .reset _ => false
  | .nop _ _ | .probeRd _ _ | .probeWr _ _ | .vdirty _ _ | .fill _ _ | .vaddr _ _ | .decode _ _ | .compose _ _ _ => true

/-- The operation is an access (R88). -/
def Instr.isAccess : Instr → Bool
  | .read _ | .write _ => true
  | .nop _ _ | .probeRd _ _ | .probeWr _ _ | .vdirty _ _ | .fill _ _ | .vaddr _ _ => false
  | .configure _ _ _ _ | .reset _ | .decode _ _ | .compose _ _ _ => false

end Sys2Proof

namespace Sys2Proof.Machine

open Sys2Proof

/-! ### The invariant -/

/-- A level either was constructed from a configuration that passes every check of R66, and holds the geometry R64
and R65 derive from it, or does not exist. -/
def CacheLevel.consistent (c : CacheLevel) : Prop :=
  (c.cfgOk = true ∧ validate c.cfg = none ∧ c.geom = deriveGeometry c.cfg) ∨ c = CacheLevel.absent c.epoch

/-- "valid lines form a prefix of the set until the set is full, and the victim slot is an invalid line exactly while
`f < W`" (R25 item 3), for a set that lists its valid lines: the listed ways are `0 .. n-1`, and while the set is not
full the cursor is `n`. -/
def CacheSet.fillsInOrder (g : Geometry) (x : CacheSet) : Prop :=
  x.lines.map Prod.fst = List.range x.lines.length ∧ (x.lines.length < g.numWays → x.cur = x.lines.length)

/-- What holds of a level between two operations (R25). -/
structure CacheLevel.Inv (c : CacheLevel) : Prop where
  consistent : c.consistent
  array : c.arrayWf = true
  inOrder : ∀ e ∈ c.sets, CacheSet.fillsInOrder c.geom e.2

/-- What holds of the block between two operations. -/
structure State.Inv (s : State) : Prop where
  l1 : s.l1.Inv
  l2 : s.l2.Inv
  /-- After ConfigError neither level exists (R109). -/
  failed : s.cfgError ≠ none → s.l1.cfgOk = false ∧ s.l2.cfgOk = false
  /-- The results are those before any access, or one of the six pairs (R96). -/
  results : (s.l1State = .noAction ∧ s.l2State = .noAction) ∨ legalPair s.l1State s.l2State = true

/-- The valid lines of each set have pairwise different tags (R26). -/
def CacheLevel.tagsUnique (c : CacheLevel) : Prop :=
  ∀ l s w w', (c.lineAt l s w).valid = true → (c.lineAt l s w').valid = true →
    (c.lineAt l s w).tag = (c.lineAt l s w').tag → w = w'

/-- Way `w` matches the address (R76): a way of the selected set that holds a valid line with the address's tag. -/
def CacheLevel.matchesAt (c : CacheLevel) (l : LevelId) (a : Address) (w : Nat) : Prop :=
  w < c.geom.numWays ∧ (c.lineAt l (c.selectSet a) w).valid = true ∧
    (c.lineAt l (c.selectSet a) w).tag = (c.fieldsOf a).tag

/-- The level is hit by the address (R76). -/
def CacheLevel.isHit (c : CacheLevel) (l : LevelId) (a : Address) : Prop := ∃ w, c.matchesAt l a w

/-- Every register of the level but its arrays is the same. -/
def CacheLevel.sameRegisters (c c' : CacheLevel) : Prop :=
  c'.cfg = c.cfg ∧ c'.geom = c.geom ∧ c'.cfgOk = c.cfgOk ∧ c'.epoch = c.epoch

/-! ### Runs -/

/-- The configuration a word asks for (R54). -/
def cfgOfWord (w : BitVec 96) : CfgIn :=
  { blockSizeBytes := bitField w.toNat 64 32, ways := bitField w.toNat 32 32, capacityKB := bitField w.toNat 0 32 }

/-- The interaction is an access. -/
def isAccessInput : Interaction → Bool
  | .construct _ _ => false
  | .access _ => true

/-- What a legal environment does to a block that is not constructed (R117, R124): it constructs it, once, and presents
accesses "only after successful construction". -/
def legalInputs : List Interaction → Bool
  | .construct w1 w2 :: rest =>
    rest.all isAccessInput && (rest.isEmpty || (validate (cfgOfWord w1) == none && validate (cfgOfWord w2) == none))
  | .access _ :: _ => false
  | [] => true

/-- Operations one after another. -/
def execAll : List Instr → State → Host.Outcome State Fault Refusal
  | [], s => .next s
  | i :: is, s => andThen (exec i s) (execAll is)

/-- How many of the operations are a `FILL` of the set `k` of the level `l`, which has the geometry `g` (R86). -/
def fillsOf (l : LevelId) (g : Geometry) (k : Nat) : List Instr → Nat
  | [] => 0
  | .fill l' a :: is => (if l' = l ∧ (g.fieldsOf a).index = k then 1 else 0) + fillsOf l g k is
  | _ :: is => fillsOf l g k is

/-! ### The accesses as the controller sequences them -/

/-- `READ a` as the sequence of cache-level operations of R92, each decision taken from the replies alone. -/
def sequencedRead (a : Address) (s : State) : Host.Outcome State Fault Refusal :=
  andThen (exec (.probeRd .l1 a) s) fun s1 =>
  if s1.l1Reply.flag then .next (s1.setResults .readHit .noAction)
  else
    andThen (exec (.probeRd .l2 (wbMux .req a 0)) s1) fun s2 =>
    andThen (if s2.l2Reply.flag then .next s2 else exec (.fill .l2 (wbMux .req a 0)) s2) fun s3 =>
    andThen (exec (.vdirty .l1 a) s3) fun s4 =>
    andThen
      (if s4.l1Reply.flag then
        andThen (exec (.vaddr .l1 a) s4) fun s5 => exec (.fill .l2 (wbMux .victim a s5.l1Reply.vaddr)) s5
      else .next s4) fun s6 =>
    andThen (exec (.fill .l1 a) s6) fun s7 =>
    .next (s7.setResults .readMiss (if s2.l2Reply.flag then .readHit else .readMiss))

/-- `WRITE a` as the sequence of cache-level operations of R92. -/
def sequencedWrite (a : Address) (s : State) : Host.Outcome State Fault Refusal :=
  andThen (exec (.probeWr .l1 a) s) fun s1 =>
  if s1.l1Reply.flag then .next (s1.setResults .writeHit .noAction)
  else
    andThen (exec (.probeWr .l2 (wbMux .req a 0)) s1) fun s2 =>
    .next (s2.setResults .writeMiss (if s2.l2Reply.flag then .writeHit else .writeMiss))

/-! ### What an observer sees -/

/-- The set with every dirty bit cleared. -/
def CacheSet.forgetDirty (x : CacheSet) : CacheSet :=
  { x with lines := x.lines.map fun e => (e.1, { e.2 with dirty := false }) }

/-- The level with every dirty bit cleared. -/
def CacheLevel.forgetDirty (c : CacheLevel) : CacheLevel :=
  { c with sets := c.sets.map fun e => (e.1, e.2.forgetDirty) }

/-- Two states differ in dirty bits of L2 only (R28 c). -/
def sameButL2Dirty (s t : State) : Prop :=
  { s with l2 := s.l2.forgetDirty } = { t with l2 := t.l2.forgetDirty }

/-- The response words of operations one after another, up to the first that answers no next state (R50, R51). -/
def responses : List Instr → State → List (BitVec 6)
  | [], _ => []
  | i :: is, s =>
    match exec i s with
    | .next t => t.rsp6 :: responses is t
    | .fault _ => []
    | .refused _ => []

end Sys2Proof.Machine
end

