-- ==== Sys2Proof/Certificates/Slice0/Obligations.lean ====
section
/-! DEFINITION. The statements about the model, for the provers. Each docstring names the rules of spec/ it rests
on. -/

open Sys2Proof Sys2Proof.Machine

/-! ### Encodings -/

/-- Words written out from the tables of R48, R54 and R55 (programs P1 and P2 of 95_test_vectors.md for the first
two), one per format. -/
def Obligations.SpecWordsDecode : Prop :=
  decode ⟨.req, 0x000002000⟩ = .instr (.read 0x2000) ∧
  decode ⟨.req, 0x100000020⟩ = .instr (.write 0x20) ∧
  decode ⟨.uop .l2, 0x500000020⟩ = .instr (.vaddr .l2 0x20) ∧
  decode ⟨.cfg .l2, 0x000000200000000400000040⟩ = .instr (.configure .l2 32 4 64)

/-- R48: bit 32 is the kind, 0 Read and 1 Write, bits 31:0 are the address, and every word is a legal request. -/
def Obligations.RequestWordDecodes : Prop :=
  ∀ w : BitVec 33, decode ⟨.req, w.setWidth 96⟩ =
    .instr (if w.getLsbD 32 then .write (w.extractLsb' 0 32) else .read (w.extractLsb' 0 32))

/-- R55 and R59 (c): the `op` codes of a level's command word, 110 and 111 refused. -/
def Obligations.LevelCommandWordDecodes : Prop :=
  ∀ (l : LevelId) (op : BitVec 3) (a : Address), decode ⟨.uop l, (op ++ a).setWidth 96⟩ =
    match op.toNat with
    | 0 => .instr (.nop l a)
    | 1 => .instr (.probeRd l a)
    | 2 => .instr (.probeWr l a)
    | 3 => .instr (.vdirty l a)
    | 4 => .instr (.fill l a)
    | 5 => .instr (.vaddr l a)
    | n => .reject (.reservedOp n)

/-- R54: the three fields of a configuration word. -/
def Obligations.ConfigurationWordDecodes : Prop :=
  ∀ (l : LevelId) (b w c : BitVec 32), decode ⟨.cfg l, b ++ w ++ c⟩ = .instr (.configure l b.toNat w.toNat c.toNat)

/-- The decoder reads back every operation the encoder writes, with every operand at every value its field admits. The
ports of RESET, DECODE and COMPOSE are the model's own (assumption 6). -/
def Obligations.EncodeThenDecode : Prop :=
  ∀ i : Instr, i.wellFormed = true → decode (encode i) = .instr i

/-- A word the decoder reads as an operation is that operation's one word, and the operation is well-formed: no bit of
a word is dropped, and at one port no two words mean the same. -/
def Obligations.DecodeThenEncode : Prop :=
  ∀ (pw : PortWord) (i : Instr), decode pw = .instr i → i.wellFormed = true ∧ encode i = pw

/-! ### Steps and runs -/

/-- A step runs the operation its word stands for, on the state from which the word is taken (R9, R119): the word a test
bench drives at a port inside the block, or else the request the environment presents. A construction is the two CONFIGURE
of its words, L1's then L2's (R117). That what is presented waits in the state is the model's choice (assumptions 2 and
9). -/
def Obligations.StepRunsDecodedInstruction : Prop :=
  ∀ s : State,
    (∀ (pw : PortWord) (rest : List PortWord) (i : Instr), s.bench = pw :: rest → decode pw = .instr i →
      step s = exec i { s with bench := rest }) ∧
    (∀ (w : BitVec 33) (rest : List Interaction) (i : Instr), s.bench = [] → s.inputs = .access w :: rest →
      decode ⟨.req, w.setWidth 96⟩ = .instr i → step s = exec i { s with inputs := rest }) ∧
    (∀ (w1 w2 : BitVec 96) (rest : List Interaction) (i1 i2 : Instr), s.bench = [] → s.inputs = .construct w1 w2 :: rest →
      decode ⟨.cfg .l1, w1⟩ = .instr i1 → decode ⟨.cfg .l2, w2⟩ = .instr i2 →
      step s = andThen (exec i1 { s with inputs := rest }) (exec i2))

/-- R59 (c): a command word with a reserved code is refused. -/
def Obligations.StepRefusesReservedCodes : Prop :=
  ∀ (s : State) (l : LevelId) (op : BitVec 3) (a : Address) (rest : List PortWord),
    s.bench = ⟨.uop l, (op ++ a).setWidth 96⟩ :: rest → 6 ≤ op.toNat →
    step s = .refused (.illegalWord (.reservedOp op.toNat))

/-- With nothing presented nothing happens (R99, R123, R124). That an empty presentation is a step at all is the model's
choice (assumption 2). -/
def Obligations.StepWithoutInputChangesNothing : Prop :=
  ∀ s : State, s.bench = [] → s.inputs = [] → step s = .next s

/-- R98, R112 and R124: no operation takes, adds or reorders what is presented, and a step takes one piece of it. With no
test bench at work (assumption 9), what a step can do is what the table of R124 has: nothing, one READ or WRITE of
constructed levels, or the construction of a block of which L1 does not exist, by its two CONFIGURE. -/
def Obligations.OperationsLeaveInputsAlone : Prop :=
  (∀ (i : Instr) (s t : State), exec i s = .next t → t.inputs = s.inputs ∧ t.bench = s.bench) ∧
  ∀ s t : State, step s = .next t →
    t.bench = s.bench.tail ∧ (s.bench ≠ [] → t.inputs = s.inputs) ∧
    (s.bench = [] → t.inputs = s.inputs.tail ∧
      (t = s ∨
      (s.constructed = true ∧ ∃ i, i.isAccess = true ∧ exec i { s with inputs := s.inputs.tail } = .next t) ∨
      (s.l1.cfgOk = false ∧ ∃ b1 w1 c1 b2 w2 c2,
        execAll [.configure .l1 b1 w1 c1, .configure .l2 b2 w2 c2] { s with inputs := s.inputs.tail } = .next t)))

/-- R100 with R117, R120 and R124: a run never stops, from whatever state without levels it starts, when its environment
does what is legal: it constructs the block once and then, if that succeeded, presents any requests. From any constructed
state it never stops when the environment presents requests alone. -/
def Obligations.LegalRunNeverStops : Prop :=
  ∀ (s : State) (n : Nat), s.bench = [] →
    (s.l1.cfgOk = false ∧ s.l2.cfgOk = false ∧ legalInputs s.inputs = true) ∨
      (s.constructed = true ∧ s.inputs.all isAccessInput = true) →
    ∃ t, Sys2Proof.core.run n s = .next t

/-! ### Construction -/

/-- R62, R63, R64 and R68 for `cfgWays >= 1`: CONFIGURE, on a level that does not exist, of powers of two that pass V4 and
V5 of R66 constructs a direct-mapped or set-associative level with exactly this geometry, empty; the error report is
cleared and the two results are `NoAction` (R23), and nothing else changes. L2's configuration takes effect unless L1's has
failed (R109, assumption 5). -/
def Obligations.ConfigureBuildsSetAssociative : Prop :=
  ∀ (s : State) (l : LevelId) (k j m : Nat), (s.level l).cfgOk = false → (l = .l2 → s.l1Failed = false) →
    k + j ≤ m + 10 → m + 10 - j ≤ 32 →
    exec (.configure l (2 ^ k) (2 ^ j) (2 ^ m)) s = .next
      { s.setLevel l
          { cfg := ⟨2 ^ k, 2 ^ j, 2 ^ m⟩
            geom := { variant := if j = 0 then .directMapped else .setAssociative
                      capacityBytes := 2 ^ m * 1024
                      offsetBits := k
                      indexBits := m + 10 - k - j
                      tagBits := 32 - (m + 10 - k - j) - k
                      numSets := 2 ^ (m + 10 - k - j)
                      numWays := 2 ^ j }
            cfgOk := true
            sets := []
            epoch := (s.level l).epoch + 1 } with cfgError := none, l1State := .noAction, l2State := .noAction }

/-- R62, R63, R65 and R68 for `cfgWays = 0`, likewise. -/
def Obligations.ConfigureBuildsFullyAssociative : Prop :=
  ∀ (s : State) (l : LevelId) (k m : Nat), (s.level l).cfgOk = false → (l = .l2 → s.l1Failed = false) →
    k ≤ m + 10 → k ≤ 32 →
    exec (.configure l (2 ^ k) 0 (2 ^ m)) s = .next
      { s.setLevel l
          { cfg := ⟨2 ^ k, 0, 2 ^ m⟩
            geom := { variant := .fullyAssociative
                      capacityBytes := 2 ^ m * 1024
                      offsetBits := k
                      indexBits := 0
                      tagBits := 32 - k
                      numSets := 1
                      numWays := 2 ^ (m + 10 - k) }
            cfgOk := true
            sets := []
            epoch := (s.level l).epoch + 1 } with cfgError := none, l1State := .noAction, l2State := .noAction }

/-- R66, R102 and R109, for a level that does not exist: the first check that fails gives the reason; neither level exists afterwards, the level and the
reason are recorded, and nothing else changes; when all pass the level is constructed. The checks V1 to V5 are written
out on exponents. That the other level's `cfg_ok` is false too is the model's reading of "Construction fails as a whole"
(assumption 5). -/
def Obligations.ConfigureReportsFirstFailedCheck : Prop :=
  ∀ (s : State) (l : LevelId) (b w c : Nat), (s.level l).cfgOk = false → (l = .l2 → s.l1Failed = false) →
    let raises := fun r : ConfigReason => exec (.configure l b w c) s = .next
      { s with
        l1 := CacheLevel.absent s.l1.epoch, l2 := CacheLevel.absent s.l2.epoch, cfgError := some ⟨l, r⟩ }
    ((¬ ∃ k, b = 2 ^ k) → raises .blockNotPow2) ∧
    (∀ k, b = 2 ^ k → (¬ ∃ m, c = 2 ^ m) → raises .capNotPow2) ∧
    (∀ k m, b = 2 ^ k → c = 2 ^ m → w ≠ 0 → (¬ ∃ j, w = 2 ^ j) → raises .waysNotPow2) ∧
    (∀ k m, b = 2 ^ k → c = 2 ^ m → w = 0 → m + 10 < k → raises .setsNotIntegral) ∧
    (∀ k m j, b = 2 ^ k → c = 2 ^ m → w = 2 ^ j → m + 10 < k + j → raises .setsNotIntegral) ∧
    (∀ k m, b = 2 ^ k → c = 2 ^ m → w = 0 → k ≤ m + 10 → 32 < k → raises .tagNegative) ∧
    (∀ k m j, b = 2 ^ k → c = 2 ^ m → w = 2 ^ j → k + j ≤ m + 10 → 32 < m + 10 - j → raises .tagNegative) ∧
    (∀ k m, b = 2 ^ k → c = 2 ^ m → w = 0 → k ≤ m + 10 → k ≤ 32 →
      ∃ t, exec (.configure l b w c) s = .next t ∧ t.cfgError = none ∧ (t.level l).cfgOk = true) ∧
    (∀ k m j, b = 2 ^ k → c = 2 ^ m → w = 2 ^ j → k + j ≤ m + 10 → m + 10 - j ≤ 32 →
      ∃ t, exec (.configure l b w c) s = .next t ∧ t.cfgError = none ∧ (t.level l).cfgOk = true)

/-- R103: "when both levels fail, L1's error is reported". That L2's configuration changes nothing once L1's has failed,
also when it is valid, and that L2's `cfg_ok` is then false too, is the model's reading of R109, which speaks of the failing
level's `cfg_ok` only (assumption 5). -/
def Obligations.FirstLevelErrorIsReported : Prop :=
  ∀ (s : State) (b1 w1 c1 b2 w2 c2 : Nat) (r : ConfigReason), s.l1.cfgOk = false → validate ⟨b1, w1, c1⟩ = some r →
    ∃ t, execAll [.configure .l1 b1 w1 c1, .configure .l2 b2 w2 c2] s = .next t ∧
      t.cfgError = some ⟨.l1, r⟩ ∧ t.l1.cfgOk = false ∧ t.l2.cfgOk = false ∧ t.l1.sets = [] ∧ t.l2.sets = []

/-- R102, R109 and R117: after ConfigError the block serves no access. That the operations of the level that did not fail
are refused too, DECODE and COMPOSE among them, is the model's reading that neither level exists (assumption 5), and the
names of the refusals are the model's (assumption 11). -/
def Obligations.ConfigErrorLeavesBlockInert : Prop :=
  ∀ (s t : State) (l l' : LevelId) (b w c : Nat) (r : ConfigReason) (a : Address) (x y : Nat),
    validate ⟨b, w, c⟩ = some r → exec (.configure l b w c) s = .next t → (l = .l2 → s.l1Failed = false) →
    exec (.read a) t = .refused .blockNotConstructed ∧ exec (.write a) t = .refused .blockNotConstructed ∧
    ∀ i ∈ [Instr.probeRd l' a, .probeWr l' a, .vdirty l' a, .fill l' a, .vaddr l' a, .reset l', .decode l' a,
        .compose l' x y],
      exec i t = .refused (.levelNotConstructed l')

/-- R67: the three widths of a valid geometry add up to 32, each of them between 0 and 32. -/
def Obligations.ValidGeometryWidthsAddUp : Prop :=
  ∀ c : CfgIn, validate c = none →
    (deriveGeometry c).offsetBits + (deriveGeometry c).indexBits + (deriveGeometry c).tagBits = 32 ∧
    (deriveGeometry c).offsetBits ≤ 32 ∧ (deriveGeometry c).indexBits ≤ 32 ∧ (deriveGeometry c).tagBits ≤ 32

/-- R12, R15 and R17: a level holds `capacityBytes / blockSizeBytes` lines in `S = 2^indexBits` sets of `W` lines, and
`W` is a power of two. -/
def Obligations.ValidGeometryHoldsCapacity : Prop :=
  ∀ c : CfgIn, validate c = none →
    (deriveGeometry c).numSets = 2 ^ (deriveGeometry c).indexBits ∧
    (deriveGeometry c).numSets * (deriveGeometry c).numWays * c.blockSizeBytes = c.capacityKB * 1024 ∧
    ∃ k, (deriveGeometry c).numWays = 2 ^ k

/-- R68's corner case: a set-associative level with a single set has the geometry of a fully-associative one of the same
`W` and block size, but for the variant's name. -/
def Obligations.OneSetIsFullyAssociative : Prop :=
  ∀ b w c : Nat, validate ⟨b, w, c⟩ = none → 1 < w → (deriveGeometry ⟨b, w, c⟩).numSets = 1 →
    validate ⟨b, 0, c⟩ = none ∧
    deriveGeometry ⟨b, 0, c⟩ = { deriveGeometry ⟨b, w, c⟩ with variant := .fullyAssociative }

/-- R11, R44, R120 and U10: only CONFIGURE writes a configuration or geometry register, and only of a level that does not
exist: CONFIGURE of a constructed level is refused, so no step, whatever is presented, changes those registers of a
constructed block, and the construction of a block that is constructed is refused. The refusal's name is the model's
(assumption 10). -/
def Obligations.OnlyConfigureWritesGeometry : Prop :=
  let same := fun s t : State => ∀ l, (t.level l).cfg = (s.level l).cfg ∧ (t.level l).geom = (s.level l).geom ∧
    (t.level l).cfgOk = (s.level l).cfgOk
  (∀ (i : Instr) (s t : State), (∀ l b w c, i ≠ .configure l b w c) → exec i s = .next t → same s t) ∧
  (∀ (s : State) (l : LevelId) (b w c : Nat), (s.level l).cfgOk = true →
    exec (.configure l b w c) s = .refused (.alreadyConstructed l)) ∧
  (∀ s t : State, s.constructed = true → step s = .next t → same s t) ∧
  ∀ (s : State) (w1 w2 : BitVec 96) (rest : List Interaction), s.l1.cfgOk = true → s.bench = [] →
    s.inputs = .construct w1 w2 :: rest → step s = .refused (.alreadyConstructed .l1)

/-- R115 and R87's other side: RESET leaves every line of the level invalid and clean and every cursor 0, so that every
probe misses, and changes no register of the level, nothing of the other level and no output. -/
def Obligations.ResetEmptiesLevel : Prop :=
  ∀ (s : State) (l : LevelId), (s.level l).cfgOk = true →
    ∃ c, exec (.reset l) s = .next (s.setLevel l c) ∧
      c.cfg = (s.level l).cfg ∧ c.geom = (s.level l).geom ∧ c.cfgOk = true ∧
      (∀ k w, (c.lineAt l k w).valid = false ∧ (c.lineAt l k w).dirty = false) ∧
      (∀ k, c.curAt k = 0) ∧ ∀ a, c.probeRd a = false

/-- R23: the state after reset, that is after a construction that succeeded (R117, R124), and after the reset input of
decision D15, from whatever state: both levels with the geometry of their configuration, empty, both results `NoAction`.
The configuration `State.reset` was made with is the model's choice (assumption 1); the environment has no move that
asserts a reset input (assumption 10). -/
def Obligations.ResetStateIsEmpty : Prop :=
  let fresh := fun t : State => t.cfgError = none ∧ t.l1State = .noAction ∧ t.l2State = .noAction ∧ ∀ l,
    (t.level l).cfgOk = true ∧ validate (t.level l).cfg = none ∧ (t.level l).geom = deriveGeometry (t.level l).cfg ∧
    (∀ k w, ((t.level l).lineAt l k w).valid = false ∧ ((t.level l).lineAt l k w).dirty = false) ∧
    ∀ k, (t.level l).curAt k = 0
  fresh State.reset ∧
  ∀ (s : State) (b1 w1 c1 b2 w2 c2 : BitVec 32),
    validate ⟨b1.toNat, w1.toNat, c1.toNat⟩ = none → validate ⟨b2.toNat, w2.toNat, c2.toNat⟩ = none →
    let made := fun t : State =>
      t.l1.cfg = ⟨b1.toNat, w1.toNat, c1.toNat⟩ ∧ t.l2.cfg = ⟨b2.toNat, w2.toNat, c2.toNat⟩ ∧ fresh t
    (∀ rest, s.l1.cfgOk = false → s.l2.cfgOk = false → s.bench = [] →
      s.inputs = .construct (b1 ++ w1 ++ c1) (b2 ++ w2 ++ c2) :: rest →
      ∃ t, step s = .next t ∧ t.inputs = rest ∧ made t) ∧
    ∃ t, s.resetInput (b1 ++ w1 ++ c1) (b2 ++ w2 ++ c2) = .next t ∧ made t

/-! ### The decoder -/

/-- R69: DECODE answers the three fields of the address and writes nothing else. -/
def Obligations.DecodeExtractsFields : Prop :=
  ∀ (s : State) (l : LevelId) (a : Address), (s.level l).cfgOk = true →
    let g := (s.level l).geom
    exec (.decode l a) s = .next
      { s with decoded :=
        { tag := a.toNat / 2 ^ (g.offsetBits + g.indexBits) % 2 ^ (32 - (g.offsetBits + g.indexBits))
          index := a.toNat / 2 ^ g.offsetBits % 2 ^ g.indexBits
          offset := a.toNat % 2 ^ g.offsetBits } }

/-- R70: the corner cases (a) to (e) of DECODE. -/
def Obligations.DecodeCornerCases : Prop :=
  ∀ (c : CfgIn) (a b : Address), validate c = none →
    let g := deriveGeometry c
    (g.indexBits = 0 → (g.fieldsOf a).index = 0) ∧
    (g.offsetBits = 0 → (g.fieldsOf a).offset = 0 ∧
      ((g.fieldsOf a).tag = (g.fieldsOf b).tag → (g.fieldsOf a).index = (g.fieldsOf b).index → a = b)) ∧
    (g.tagBits = 0 → (g.fieldsOf a).tag = 0 ∧
      ∀ (l : LevelId) (lvl : CacheLevel) (w : Nat), lvl.geom = g → lvl.arrayWf = true → w < g.numWays →
        (lvl.lineAt l (lvl.selectSet a) w).valid = true → lvl.matchesAt l a w) ∧
    g.fieldsOf 0xFFFFFFFF = { tag := 2 ^ g.tagBits - 1, index := 2 ^ g.indexBits - 1, offset := 2 ^ g.offsetBits - 1 } ∧
    (g.fieldsOf a).tag < 2 ^ g.tagBits ∧ (g.fieldsOf a).index < g.numSets ∧ (g.fieldsOf a).offset < c.blockSizeBytes

/-- R71: COMPOSE answers `tag ++ index ++ zeros`, a multiple of the block size, for the operands R71 gives it, and
writes nothing else. For other operands it completes with some address, which R71 does not state (assumption 4). -/
def Obligations.ComposePacksFields : Prop :=
  ∀ (s : State) (l : LevelId) (tag index : Nat), (s.level l).cfgOk = true → (s.level l).consistent →
    ∃ v : Address, exec (.compose l tag index) s = .next { s with composed := v } ∧
      (tag < 2 ^ (s.level l).geom.tagBits → index < 2 ^ (s.level l).geom.indexBits →
        v.toNat = tag * 2 ^ ((s.level l).geom.indexBits + (s.level l).geom.offsetBits) +
          index * 2 ^ (s.level l).geom.offsetBits ∧
        (s.level l).cfg.blockSizeBytes ∣ v.toNat)

/-- R72: the round trips between DECODE and COMPOSE at one level, and that across levels the numbers differ in
general. -/
def Obligations.ComposeDecodeRoundTrips : Prop :=
  (∀ (c : CfgIn) (a : Address), validate c = none →
    let g := deriveGeometry c
    (g.composeOf (g.fieldsOf a).tag (g.fieldsOf a).index).toNat = a.toNat - a.toNat % c.blockSizeBytes ∧
    ∀ t i, t < 2 ^ g.tagBits → i < 2 ^ g.indexBits →
      g.fieldsOf (g.composeOf t i) = { tag := t, index := i, offset := 0 }) ∧
  ∃ (c1 c2 : CfgIn) (t i : Nat), validate c1 = none ∧ validate c2 = none ∧
    t < 2 ^ (deriveGeometry c1).tagBits ∧ i < 2 ^ (deriveGeometry c1).indexBits ∧
    ((deriveGeometry c2).fieldsOf ((deriveGeometry c1).composeOf t i)).tag ≠ t ∧
    ((deriveGeometry c2).fieldsOf ((deriveGeometry c1).composeOf t i)).index ≠ i

/-- R73: two addresses agree in tag and index exactly when they lie in the same block. -/
def Obligations.SameBlockSameTagAndIndex : Prop :=
  ∀ (c : CfgIn) (a b : Address), validate c = none →
    ((((deriveGeometry c).fieldsOf a).tag = ((deriveGeometry c).fieldsOf b).tag ∧
      ((deriveGeometry c).fieldsOf a).index = ((deriveGeometry c).fieldsOf b).index) ↔
    a.toNat / c.blockSizeBytes = b.toNat / c.blockSizeBytes)

/-! ### The operations of one level -/

/-- R77: NOP is `op = 000`; it writes nothing, and its reply is zeros. That it completes on a level that does not exist too
is the model's (assumption 11). -/
def Obligations.NopWritesNothing : Prop :=
  ∀ (s : State) (l : LevelId) (a : Address),
    decode ⟨.uop l, (0#3 ++ a).setWidth 96⟩ = .instr (.nop l a) ∧
    exec (.nop l a) s = .next (s.setReply l { flag := false, vaddr := 0 })

/-- R78 with R76: PROBE_RD is `op = 001`; it reports whether the selected set holds a valid line with the address's
tag, and mutates nothing. -/
def Obligations.ProbeRdReportsHit : Prop :=
  ∀ (s : State) (l : LevelId) (a : Address), (s.level l).cfgOk = true → (s.level l).arrayWf = true →
    decode ⟨.uop l, (1#3 ++ a).setWidth 96⟩ = .instr (.probeRd l a) ∧
    ∃ hit : Bool, exec (.probeRd l a) s = .next (s.setReply l { flag := hit, vaddr := 0 }) ∧
      (hit = true ↔ ∃ w, w < (s.level l).geom.numWays ∧
        ((s.level l).lineAt l ((s.level l).fieldsOf a).index w).valid = true ∧
        ((s.level l).lineAt l ((s.level l).fieldsOf a).index w).tag = ((s.level l).fieldsOf a).tag)

/-- R79 and R84: PROBE_WR is `op = 010`; on a hit it sets the dirty bit of the lowest-numbered matching way and changes
nothing else but its reply, on a miss nothing but its reply. Which of several matching ways is dirtied is a choice, the spec's
decision D10, which makes it a parameter (assumption 8). -/
def Obligations.ProbeWrDirtiesLowestMatch : Prop :=
  ∀ (s : State) (l : LevelId) (a : Address), (s.level l).cfgOk = true → (s.level l).arrayWf = true →
    decode ⟨.uop l, (2#3 ++ a).setWidth 96⟩ = .instr (.probeWr l a) ∧
    (∀ w, (s.level l).matchesAt l a w → (∀ w', w' < w → ¬ (s.level l).matchesAt l a w') →
      ∃ c, exec (.probeWr l a) s = .next ((s.setLevel l c).setReply l { flag := true, vaddr := 0 }) ∧
        (s.level l).sameRegisters c ∧ (∀ k, c.curAt k = (s.level l).curAt k) ∧
        ∀ k v, c.lineAt l k v =
          if k = ((s.level l).fieldsOf a).index ∧ v = w then { (s.level l).lineAt l k v with dirty := true }
          else (s.level l).lineAt l k v) ∧
    (¬ (s.level l).isHit l a → exec (.probeWr l a) s = .next (s.setReply l { flag := false, vaddr := 0 }))

/-- R80: VDIRTY is `op = 011`; it reports the dirty bit of the victim slot, the way the cursor of the selected set
names, whatever the tag of the address, and writes nothing. An invalid victim slot reports 0. -/
def Obligations.VdirtyReportsVictimSlot : Prop :=
  ∀ (s : State) (l : LevelId) (a : Address), (s.level l).cfgOk = true →
    let k := ((s.level l).fieldsOf a).index
    let victim := (s.level l).lineAt l k ((s.level l).curAt k)
    decode ⟨.uop l, (3#3 ++ a).setWidth 96⟩ = .instr (.vdirty l a) ∧
    exec (.vdirty l a) s = .next (s.setReply l { flag := victim.dirty, vaddr := 0 }) ∧
    ((s.level l).arrayWf = true → victim.valid = false → victim.dirty = false)

/-- R81: FILL is `op = 100`; it installs the address's tag, valid and clean, in the victim slot, advances the cursor of
the set, and changes nothing else. -/
def Obligations.FillInstallsAtCursor : Prop :=
  ∀ (s : State) (l : LevelId) (a : Address), (s.level l).cfgOk = true →
    let c := s.level l
    let k := (c.fieldsOf a).index
    decode ⟨.uop l, (4#3 ++ a).setWidth 96⟩ = .instr (.fill l a) ∧
    ∃ c', exec (.fill l a) s = .next ((s.setLevel l c').setReply l { flag := false, vaddr := 0 }) ∧
      c.sameRegisters c' ∧
      (∀ k' v, c'.lineAt l k' v =
        if k' = k ∧ v = c.curAt k then { tag := (c.fieldsOf a).tag, valid := true, dirty := false }
        else c.lineAt l k' v) ∧
      ∀ k', c'.curAt k' = if k' = k then (c.curAt k + 1) % c.geom.numWays else c.curAt k'

/-- R82: VADDR is `op = 101`; it reconstructs the address of the line in the victim slot; the index is the selected set's
and the offset 0, whether or not the slot is valid, and for a valid slot the tag is the line's. It writes nothing. -/
def Obligations.VaddrReconstructsVictim : Prop :=
  ∀ (s : State) (l : LevelId) (a : Address), (s.level l).cfgOk = true → (s.level l).Inv →
    let c := s.level l
    let k := (c.fieldsOf a).index
    decode ⟨.uop l, (5#3 ++ a).setWidth 96⟩ = .instr (.vaddr l a) ∧
    ∃ v : Address, exec (.vaddr l a) s = .next (s.setReply l { flag := false, vaddr := v }) ∧
      (c.fieldsOf v).index = k ∧ (c.fieldsOf v).offset = 0 ∧
      ((c.lineAt l k (c.curAt k)).valid = true →
        v.toNat = (c.lineAt l k (c.curAt k)).tag * 2 ^ (c.geom.indexBits + c.geom.offsetBits) +
          k * 2 ^ c.geom.offsetBits)

/-- R85 and R74: each of the six operations answers in every state of a constructed level, for every address. -/
def Obligations.LevelOperationsAreTotal : Prop :=
  ∀ (s : State) (l : LevelId) (a : Address), (s.level l).cfgOk = true →
    ∀ i ∈ [Instr.nop l a, .probeRd l a, .probeWr l a, .vdirty l a, .fill l a, .vaddr l a],
      ∃ t, exec i s = .next t

/-- R87 with R22: what the operations of a level never do. The other level, every set but the selected one, the level's
registers, the results of the last access and the construction outcome stay as they are. No line is invalidated; no
cursor moves except by FILL; and a line changes its tag, becomes valid or loses its dirty bit only as the line FILL
overwrites, the victim slot. -/
def Obligations.LevelOperationsStayInTheirSet : Prop :=
  ∀ (s t : State) (l l' : LevelId) (a : Address) (i : Instr),
    i ∈ [Instr.nop l a, .probeRd l a, .probeWr l a, .vdirty l a, .fill l a, .vaddr l a] → exec i s = .next t →
    (l' ≠ l → t.level l' = s.level l' ∧ t.reply l' = s.reply l') ∧
    (s.level l).sameRegisters (t.level l) ∧
    (∀ k, k ≠ ((s.level l).fieldsOf a).index → (t.level l).setAt k = (s.level l).setAt k) ∧
    (t.l1State = s.l1State ∧ t.l2State = s.l2State ∧ t.cfgError = s.cfgError ∧ t.decoded = s.decoded ∧
      t.composed = s.composed) ∧
    ∀ k w,
      (((s.level l).lineAt l k w).valid = true → ((t.level l).lineAt l k w).valid = true) ∧
      (i ≠ .fill l a → (t.level l).curAt k = (s.level l).curAt k) ∧
      (¬ (i = .fill l a ∧ k = ((s.level l).fieldsOf a).index ∧ w = (s.level l).curAt k) →
        ((t.level l).lineAt l k w).tag = ((s.level l).lineAt l k w).tag ∧
        ((t.level l).lineAt l k w).valid = ((s.level l).lineAt l k w).valid ∧
        (((s.level l).lineAt l k w).dirty = true → ((t.level l).lineAt l k w).dirty = true))

/-- R79's corner case with C5: with one way the line a write probe hit is the victim slot, so VDIRTY of the same address
is then true. -/
def Obligations.DirectMappedWriteHitIsVictimDirty : Prop :=
  ∀ (s : State) (l : LevelId) (a : Address), (s.level l).cfgOk = true → (s.level l).arrayWf = true →
    (s.level l).geom.numWays = 1 → (s.level l).isHit l a →
    ∃ t, execAll [.probeWr l a, .vdirty l a] s = .next t ∧ (t.reply l).flag = true

/-- R86 and R25 item 3: from an empty level, whatever operations of either level run, a set that took `n` fills has its
cursor at `n mod W` and exactly the ways below `min(n, W)` valid. -/
def Obligations.RoundRobinLaw : Prop :=
  ∀ (s t : State) (l : LevelId) (k : Nat) (is : List Instr),
    (s.level l).cfgOk = true → (s.level l).consistent → (s.level l).sets = [] → (∀ i ∈ is, i.isLevelOp = true) →
    execAll is s = .next t →
    (t.level l).curAt k = fillsOf l (s.level l).geom k is % (s.level l).geom.numWays ∧
    ∀ w, (((t.level l).lineAt l k w).valid = true ↔ w < min (fillsOf l (s.level l).geom k is) (s.level l).geom.numWays)

/-! ### The accesses -/

/-- R91: an access that hits L1, read or write, reports `NoAction` for L2 and leaves L2 as it is; a read hit leaves L1 as
it is too. -/
def Obligations.L1HitShortCircuits : Prop :=
  ∀ (s : State) (a : Address), s.constructed = true → s.l1.arrayWf = true → s.l1.isHit .l1 a →
    exec (.read a) s = .next { s with l1State := .readHit, l2State := .noAction } ∧
    ∃ c, exec (.write a) s = .next { s with l1 := c, l1State := .writeHit, l2State := .noAction }

/-- R89: a read that hits L1 changes neither level; a read that misses L1 fills L1, and in L2 nothing, or the address, or
the victim's address when the L1 victim is dirty, or both in that order. -/
def Obligations.ReadFillsAndWritesBack : Prop :=
  ∀ (s : State) (a : Address), s.constructed = true → s.l1.arrayWf = true → s.l2.arrayWf = true →
    (s.l1.isHit .l1 a → exec (.read a) s = .next { s with l1State := .readHit, l2State := .noAction }) ∧
    (¬ s.l1.isHit .l1 a → s.l2.isHit .l2 a → s.l1.vdirty a = false →
      exec (.read a) s = .next { s with l1 := s.l1.fill a, l1State := .readMiss, l2State := .readHit }) ∧
    (¬ s.l1.isHit .l1 a → s.l2.isHit .l2 a → s.l1.vdirty a = true →
      exec (.read a) s = .next
        { s with l1 := s.l1.fill a, l2 := s.l2.fill (s.l1.vaddr .l1 a), l1State := .readMiss, l2State := .readHit }) ∧
    (¬ s.l1.isHit .l1 a → ¬ s.l2.isHit .l2 a → s.l1.vdirty a = false →
      exec (.read a) s = .next
        { s with l1 := s.l1.fill a, l2 := s.l2.fill a, l1State := .readMiss, l2State := .readMiss }) ∧
    (¬ s.l1.isHit .l1 a → ¬ s.l2.isHit .l2 a → s.l1.vdirty a = true →
      exec (.read a) s = .next
        { s with
          l1 := s.l1.fill a, l2 := (s.l2.fill a).fill (s.l1.vaddr .l1 a), l1State := .readMiss, l2State := .readMiss })

/-- R90: a write that hits L1 dirties the matching L1 line and leaves L2, every tag, valid bit and cursor as they are. Where
several ways match it is the lowest-numbered: a choice, the spec's decision D10, which makes it a parameter (assumption
8). -/
def Obligations.WriteHitDirtiesL1 : Prop :=
  ∀ (s : State) (a : Address) (w : Nat), s.constructed = true → s.l1.arrayWf = true →
    s.l1.matchesAt .l1 a w → (∀ w', w' < w → ¬ s.l1.matchesAt .l1 a w') →
    ∃ c, exec (.write a) s = .next { s with l1 := c, l1State := .writeHit, l2State := .noAction } ∧
      s.l1.sameRegisters c ∧ (∀ k, c.curAt k = s.l1.curAt k) ∧
      ∀ k v, c.lineAt .l1 k v =
        if k = (s.l1.fieldsOf a).index ∧ v = w then { s.l1.lineAt .l1 k v with dirty := true } else s.l1.lineAt .l1 k v

/-- R90: a write that misses L1 and hits L2 dirties the matching L2 line and changes nothing else. Where several ways match
it is the lowest-numbered: a choice, the spec's decision D10, which makes it a parameter (assumption 8). -/
def Obligations.WriteMissDirtiesL2 : Prop :=
  ∀ (s : State) (a : Address) (w : Nat), s.constructed = true → s.l1.arrayWf = true → s.l2.arrayWf = true →
    ¬ s.l1.isHit .l1 a → s.l2.matchesAt .l2 a w → (∀ w', w' < w → ¬ s.l2.matchesAt .l2 a w') →
    ∃ c, exec (.write a) s = .next { s with l2 := c, l1State := .writeMiss, l2State := .writeHit } ∧
      s.l2.sameRegisters c ∧ (∀ k, c.curAt k = s.l2.curAt k) ∧
      ∀ k v, c.lineAt .l2 k v =
        if k = (s.l2.fieldsOf a).index ∧ v = w then { s.l2.lineAt .l2 k v with dirty := true } else s.l2.lineAt .l2 k v

/-- R90 and R95: a write that misses both levels installs nothing and changes neither, however often it is repeated
(R37). -/
def Obligations.WriteMissInstallsNothing : Prop :=
  ∀ (s : State) (a : Address) (n : Nat), s.constructed = true → s.l1.arrayWf = true → s.l2.arrayWf = true →
    ¬ s.l1.isHit .l1 a → ¬ s.l2.isHit .l2 a →
    execAll (List.replicate (n + 1) (.write a)) s = .next { s with l1State := .writeMiss, l2State := .writeMiss }

/-- R37: whatever a read did, the same read again hits L1 and changes neither level. -/
def Obligations.RepeatedReadHits : Prop :=
  ∀ (s t : State) (a : Address), s.Inv → exec (.read a) s = .next t →
    exec (.read a) t = .next { t with l1State := .readHit, l2State := .noAction }

/-- R89 with R92 and R93: READ is its sequence of cache-level operations, each decision taken from the replies, the L2
address chosen by the multiplexer. The replies are internal to the access (assumption 2). -/
def Obligations.ReadIsItsSequence : Prop :=
  ∀ (s : State) (a : Address), s.constructed = true →
    ∃ t, sequencedRead a s = .next t ∧
      exec (.read a) s = .next { t with l1Reply := s.l1Reply, l2Reply := s.l2Reply }

/-- R90 with R92: WRITE is its sequence of cache-level operations. -/
def Obligations.WriteIsItsSequence : Prop :=
  ∀ (s : State) (a : Address), s.constructed = true →
    ∃ t, sequencedWrite a s = .next t ∧
      exec (.write a) s = .next { t with l1Reply := s.l1Reply, l2Reply := s.l2Reply }

/-- R96: the six result pairs, when each occurs, and its output line. -/
def Obligations.ResultPairsAndLines : Prop :=
  ∀ (s : State) (a : Address), s.constructed = true → s.l1.arrayWf = true → s.l2.arrayWf = true →
    let answers := fun (i : Instr) (x1 x2 : AccessState) (d1 d2 : Char) =>
      ∃ t, exec i s = .next t ∧ t.l1State = x1 ∧ t.l2State = x2 ∧ outputLine t.l1State t.l2State = [d1, ' ', d2]
    (s.l1.isHit .l1 a → answers (.read a) .readHit .noAction '1' '0') ∧
    (¬ s.l1.isHit .l1 a → s.l2.isHit .l2 a → answers (.read a) .readMiss .readHit '2' '1') ∧
    (¬ s.l1.isHit .l1 a → ¬ s.l2.isHit .l2 a → answers (.read a) .readMiss .readMiss '2' '2') ∧
    (s.l1.isHit .l1 a → answers (.write a) .writeHit .noAction '3' '0') ∧
    (¬ s.l1.isHit .l1 a → s.l2.isHit .l2 a → answers (.write a) .writeMiss .writeHit '4' '3') ∧
    (¬ s.l1.isHit .l1 a → ¬ s.l2.isHit .l2 a → answers (.write a) .writeMiss .writeMiss '4' '4')

/-- R50 and R59 (b): the response word of an access holds the two codes in bits 5:3 and 2:0, never a code above 4, and a
consumer that refuses impossible words reads the pair back. -/
def Obligations.ResponseWordIsLegal : Prop :=
  ∀ (i : Instr) (s t : State), i.isAccess = true → exec i s = .next t →
    (t.rsp6.extractLsb' 3 3).toNat = stateCode t.l1State ∧ (t.rsp6.extractLsb' 0 3).toNat = stateCode t.l2State ∧
    (t.rsp6.extractLsb' 3 3).toNat ≤ 4 ∧ (t.rsp6.extractLsb' 0 3).toNat ≤ 4 ∧
    consumeRsp6 t.rsp6 = .ok (t.l1State, t.l2State)

/-- R90 and R45: a write changes no tag, no valid bit and no cursor of either level, and clears no dirty bit. -/
def Obligations.WriteNeverAllocates : Prop :=
  ∀ (s t : State) (a : Address) (l : LevelId) (k w : Nat), exec (.write a) s = .next t →
    (t.level l).curAt k = (s.level l).curAt k ∧
    ((t.level l).lineAt l k w).tag = ((s.level l).lineAt l k w).tag ∧
    ((t.level l).lineAt l k w).valid = ((s.level l).lineAt l k w).valid ∧
    (((s.level l).lineAt l k w).dirty = true → ((t.level l).lineAt l k w).dirty = true)

/-- R32 and R35: at both levels all addresses of one block are alike to an access. -/
def Obligations.AccessesSeeBlocksOnly : Prop :=
  ∀ (s : State) (a b : Address), s.l1.consistent → s.l2.consistent →
    a.toNat / s.l1.cfg.blockSizeBytes = b.toNat / s.l1.cfg.blockSizeBytes →
    a.toNat / s.l2.cfg.blockSizeBytes = b.toNat / s.l2.cfg.blockSizeBytes →
    exec (.read a) s = exec (.read b) s ∧ exec (.write a) s = exec (.write b) s

/-- R106, R109 and R117: an access is refused exactly when not both levels are constructed, and no operation ever faults.
R109 says that the request port "accepts nothing"; that this is a refusal, and its name, is the model's reading (assumption
11). R106 speaks of accesses; that CONFIGURE does not fault either is the model's reading of R68's exception ConfigError as a
next state (assumption 5). -/
def Obligations.AccessesNeedConstruction : Prop :=
  (∀ (s : State) (a : Address),
    (exec (.read a) s = .refused .blockNotConstructed ↔ s.constructed = false) ∧
    (exec (.write a) s = .refused .blockNotConstructed ↔ s.constructed = false)) ∧
  ∀ (i : Instr) (s : State) (f : Fault), exec i s ≠ .fault f

/-! ### Invariants -/

/-- The reset state meets the invariant (R25 of the state R23 gives). -/
def Obligations.ResetMeetsInvariant : Prop := State.reset.Inv

/-- R25: every step from a state that meets the invariant keeps it: valid geometries, tag arrays in canonical form with
tags of `tagBits` bits and cursors below `W`, valid lines a prefix of each set with the cursor at the first invalid way,
results of the six pairs. -/
def Obligations.StepKeepsInvariant : Prop :=
  ∀ s t : State, s.Inv → step s = .next t → t.Inv

/-- R25 items 2 and 3 in the terms of the rules: an invalid line is clean, and the valid ways are those below the cursor
until the set is full. -/
def Obligations.InvariantMeansPrefix : Prop :=
  ∀ (s : State) (l : LevelId) (k : Nat), s.Inv → (s.level l).cfgOk = true →
    (s.level l).curAt k < (s.level l).geom.numWays ∧
    (∀ w, ((s.level l).lineAt l k w).valid = false → ((s.level l).lineAt l k w).dirty = false) ∧
    (((s.level l).lineAt l k ((s.level l).curAt k)).valid = false →
      ∀ w, (((s.level l).lineAt l k w).valid = true ↔ w < (s.level l).curAt k)) ∧
    (((s.level l).lineAt l k ((s.level l).curAt k)).valid = true →
      ∀ w, (((s.level l).lineAt l k w).valid = true ↔ w < (s.level l).geom.numWays))

/-- R25 item 4 and R45: a valid line stays valid until its level is reset; of a block of which one level does not exist,
until a construction of that one fails. -/
def Obligations.ValidLinesStayValid : Prop :=
  ∀ (i : Instr) (s t : State) (l : LevelId) (k w : Nat), (∀ l, i ≠ .reset l) →
    (s.constructed = false → ∀ l b w c, i ≠ .configure l b w c) →
    exec i s = .next t → ((s.level l).lineAt l k w).valid = true → ((t.level l).lineAt l k w).valid = true

/-- R24 and corner case (i) of R89: a dirty L1 victim is a valid line, so no access reads the unspecified tag of a line
never filled. -/
def Obligations.DirtyVictimIsValid : Prop :=
  ∀ (s : State) (a : Address), s.Inv → s.l1.vdirty a = true →
    (s.l1.lineAt .l1 (s.l1.fieldsOf a).index (s.l1.curAt (s.l1.fieldsOf a).index)).valid = true

/-- R26: under the controller's protocol, from an empty L1 or one whose tags are unique, the valid lines of one L1 set
have pairwise different tags. -/
def Obligations.AccessesKeepL1TagsUnique : Prop :=
  ∀ (s t : State) (is : List Instr), s.Inv → s.l1.sets = [] ∨ s.l1.tagsUnique → (∀ i ∈ is, i.isAccess = true) →
    execAll is s = .next t → t.l1.tagsUnique

/-- R27: the write-back does not probe L2, so when a read misses L1 with a dirty victim whose block is resident in L2 (as
step 2a leaves it), a second valid line with its tag is installed in its L2 set, unless the set's cursor is at the first
copy. -/
def Obligations.WriteBackInstallsSecondCopy : Prop :=
  ∀ (s : State) (a : Address) (w : Nat), s.Inv → s.constructed = true → ¬ s.l1.isHit .l1 a → s.l1.vdirty a = true →
    let v := s.l1.vaddr .l1 a
    let c := if s.l2.matchHit a then s.l2 else s.l2.fill a
    c.matchesAt .l2 v w → w ≠ c.curAt (c.fieldsOf v).index →
    ∃ t, exec (.read a) s = .next t ∧ t.l2.matchesAt .l2 v w ∧
      t.l2.matchesAt .l2 v (c.curAt (c.fieldsOf v).index) ∧ ¬ t.l2.tagsUnique

/-! ### What an observer sees -/

/-- R28 (c): the dirty bits of L2 influence no output: two states that differ in them only answer every trace of
accesses with the same response words. -/
def Obligations.L2DirtyBitsAreInvisible : Prop :=
  ∀ (s t : State) (is : List Instr), sameButL2Dirty s t → (∀ i ∈ is, i.isAccess = true) →
    responses is s = responses is t

/-- R84: no result depends on `MULTI_MATCH`: whichever matching copies a write probe dirties, the results of the write
are the same, L1 is the same when its tags are unique, and L2 differs in dirty bits only. -/
def Obligations.MultiMatchIsInvisible : Prop :=
  ∀ (c1 c2 : CacheLevel) (a : Address), c1.arrayWf = true → c1.tagsUnique →
    (writeAccess .all c1 c2 a).l1State = (writeAccess .lowest c1 c2 a).l1State ∧
    (writeAccess .all c1 c2 a).l2State = (writeAccess .lowest c1 c2 a).l2State ∧
    (writeAccess .all c1 c2 a).l1 = (writeAccess .lowest c1 c2 a).l1 ∧
    (writeAccess .all c1 c2 a).l2.forgetDirty = (writeAccess .lowest c1 c2 a).l2.forgetDirty

/-- R24 and R41: the unspecified tag of a line never filled influences no output: two states that differ only in the
draws of those tags (the model's counters `epoch`, assumption 3) answer every trace of accesses with the same response
words. -/
def Obligations.UnwrittenTagsAreInvisible : Prop :=
  ∀ (s : State) (n1 n2 : Nat) (is : List Instr), (∀ i ∈ is, i.isAccess = true) →
    responses is { s with l1 := { s.l1 with epoch := n1 }, l2 := { s.l2 with epoch := n2 } } = responses is s
end

