-- ==== Sys2Proof/Laws/Decode.lean ====
section
/-! SUPPORT. The fields of a word put together from fields. -/

namespace Sys2Proof

/-- A word of at most 96 bits is the number it is written as. -/
theorem word96_toNat {hi lo : Nat} (hhi : hi < 2 ^ 64) (hlo : lo < 2 ^ 32) :
    (word96 hi lo).toNat = hi * 2 ^ 32 + lo := by
  rw [word96, BitVec.toNat_ofNat, Nat.mod_eq_of_lt]
  omega

/-- The low 32 bits are the low field. -/
theorem bitField_low {hi lo : Nat} (hlo : lo < 2 ^ 32) : bitField (hi * 2 ^ 32 + lo) 0 32 = lo := by
  simp only [bitField]
  omega

/-- A field above the low 32 bits is the same field of the high part. -/
theorem bitField_high {hi lo n width : Nat} (hlo : lo < 2 ^ 32) :
    bitField (hi * 2 ^ 32 + lo) (32 + n) width = bitField hi n width := by
  simp only [bitField]
  rw [Nat.pow_add, ← Nat.div_div_eq_div_mul]
  congr 2
  omega

/-- A field that is the whole number. -/
theorem bitField_all {v width : Nat} (h : v < 2 ^ width) : bitField v 0 width = v := by
  simp only [bitField, Nat.pow_zero, Nat.div_one]
  exact Nat.mod_eq_of_lt h

theorem addrField_word {hi : Nat} (a : Address) : addrField (hi * 2 ^ 32 + a.toNat) = a := by
  rw [addrField, bitField_low a.isLt, BitVec.ofNat_toNat, BitVec.setWidth_eq]

/-- Decoding a word that fits its port, by the part above the low 32 bits and the low 32 bits. -/
theorem decode_word96 (p : Port) {hi lo : Nat} (h64 : hi < 2 ^ 64) (hlo : lo < 2 ^ 32)
    (h : hi * 2 ^ 32 + lo < 2 ^ p.width) : decode ⟨p, word96 hi lo⟩ = match p with
      | .req => decodeReq (bitField hi 0 1) (BitVec.ofNat 32 lo)
      | .uop l => decodeUop l (bitField hi 0 3) (BitVec.ofNat 32 lo)
      | .cfg l => .instr (.configure l (bitField hi 32 32) (bitField hi 0 32) lo)
      | .rst l => .instr (.reset l)
      | .dec l => .instr (.decode l (BitVec.ofNat 32 lo))
      | .cmp l => .instr (.compose l (bitField hi 0 32) lo) := by
  have e0 := @bitField_low hi lo hlo
  have e := fun n w => @bitField_high hi lo n w hlo
  unfold decode
  simp only [word96_toNat h64 hlo, if_neg (Nat.not_le.2 h)]
  cases p <;> simp only [addrField, e0, ← e]

/-- A level's command word, from its `op` code and its address (R55). -/
theorem decode_uop_word (l : LevelId) (op : BitVec 3) (a : Address) :
    decode ⟨.uop l, (op ++ a).setWidth 96⟩ = decodeUop l op.toNat a := by
  have ho := op.isLt
  have ha := a.isLt
  have e : (op ++ a).setWidth 96 = word96 op.toNat a.toNat := by
    apply BitVec.eq_of_toNat_eq
    rw [word96_toNat (by omega) (by omega), BitVec.toNat_setWidth, BitVec.toNat_append,
      ← Nat.shiftLeft_add_eq_or_of_lt ha, Nat.shiftLeft_eq]
    omega
  rw [e, decode_word96 _ (by omega) (by omega) (by simp only [Port.width]; omega)]
  simp only [bitField, Nat.pow_zero, Nat.div_one, Nat.mod_eq_of_lt ho, BitVec.ofNat_toNat, BitVec.setWidth_eq]

theorem fitsField_iff (n v : Nat) : fitsField n v = true ↔ v < 2 ^ n := by simp [fitsField]

end Sys2Proof
end

