-- ==== Sys2Proof/Laws/Geometry.lean ====
section
/-! SUPPORT. Geometry arithmetic: the checks of R66 on exponents, the derived geometry on exponents, and the fields of
an address. -/

namespace Sys2Proof.Machine

open Sys2Proof

theorem isPow2_iff (n : Nat) : isPow2 n = true ↔ ∃ k, n = 2 ^ k := by
  unfold isPow2
  constructor
  · intro h
    simp only [Bool.and_eq_true, beq_iff_eq] at h
    exact ⟨_, h.2.symm⟩
  · rintro ⟨k, rfl⟩
    simp [Nat.log2_two_pow]

@[simp] theorem isPow2_two_pow (k : Nat) : isPow2 (2 ^ k) = true := (isPow2_iff _).2 ⟨k, rfl⟩

theorem two_pow_pos (k : Nat) : 0 < 2 ^ k := Nat.pow_pos (by decide)

theorem two_pow_ne_zero (k : Nat) : 2 ^ k ≠ 0 := Nat.ne_of_gt (two_pow_pos k)

theorem capacityBytes_two_pow (m : Nat) : 2 ^ m * 1024 = 2 ^ (m + 10) := by rw [Nat.pow_add]

/-- `S` on exponents (R64). -/
theorem numSetsOf_two_pow {k j m : Nat} (h : k + j ≤ m + 10) :
    numSetsOf ⟨2 ^ k, 2 ^ j, 2 ^ m⟩ = 2 ^ (m + 10 - k - j) := by
  simp only [numSetsOf, two_pow_ne_zero, if_false, capacityBytesOf, capacityBytes_two_pow]
  rw [← Nat.pow_add, Nat.pow_div h (by decide), Nat.sub_sub]

/-- `W` of a fully-associative level on exponents (R65). -/
theorem numWaysOf_two_pow {k m : Nat} (h : k ≤ m + 10) : numWaysOf ⟨2 ^ k, 0, 2 ^ m⟩ = 2 ^ (m + 10 - k) := by
  simp only [numWaysOf, if_true, capacityBytesOf, capacityBytes_two_pow]
  rw [Nat.pow_div h (by decide)]

theorem variantOf_two_pow (j : Nat) :
    variantOf (2 ^ j) = if j = 0 then .directMapped else .setAssociative := by
  cases j with
  | zero => rfl
  | succ j =>
    have h2 : 2 ≤ 2 ^ (j + 1) := by have := two_pow_pos j; rw [Nat.pow_succ]; omega
    obtain ⟨n, hn⟩ : ∃ n, 2 ^ (j + 1) = n + 2 := ⟨2 ^ (j + 1) - 2, by omega⟩
    rw [hn]; rfl

theorem setsIntegral_two_pow (k j m : Nat) : setsIntegral ⟨2 ^ k, 2 ^ j, 2 ^ m⟩ = decide (k + j ≤ m + 10) := by
  simp only [setsIntegral, two_pow_ne_zero, if_false, capacityBytesOf, capacityBytes_two_pow, ← Nat.pow_add]
  exact decide_eq_decide.2 (Nat.pow_le_pow_iff_right (by decide))

theorem setsIntegral_zero (k m : Nat) : setsIntegral ⟨2 ^ k, 0, 2 ^ m⟩ = decide (k ≤ m + 10) := by
  simp only [setsIntegral, if_true, capacityBytesOf, capacityBytes_two_pow]
  exact decide_eq_decide.2 (Nat.pow_le_pow_iff_right (by decide))

/-- R66 for `cfgWays >= 1`, on exponents. -/
theorem validate_two_pow (k j m : Nat) : validate ⟨2 ^ k, 2 ^ j, 2 ^ m⟩ =
    if m + 10 < k + j then some .setsNotIntegral else if 32 < m + 10 - j then some .tagNegative else none := by
  unfold validate
  simp only [isPow2_two_pow, Bool.not_true, Bool.or_true, Bool.false_eq_true, if_false, setsIntegral_two_pow]
  by_cases h : k + j ≤ m + 10
  · have e : m + 10 - k - j + k = m + 10 - j := by omega
    simp only [h, decide_true, Bool.not_true, Bool.false_eq_true, if_false, numSetsOf_two_pow h, Nat.log2_two_pow, e,
      Config.addrWidth, Nat.not_lt.2 h]
  · have h' : m + 10 < k + j := by omega
    simp [h, h']

/-- R66 for `cfgWays = 0`, on exponents. -/
theorem validate_zero_ways (k m : Nat) : validate ⟨2 ^ k, 0, 2 ^ m⟩ =
    if m + 10 < k then some .setsNotIntegral else if 32 < k then some .tagNegative else none := by
  unfold validate
  have e : numSetsOf ⟨2 ^ k, 0, 2 ^ m⟩ = 2 ^ 0 := rfl
  simp only [isPow2_two_pow, Bool.not_true, beq_self_eq_true, Bool.true_or, Bool.false_eq_true, if_false,
    setsIntegral_zero, e, Nat.log2_two_pow, Nat.zero_add, Config.addrWidth]
  by_cases h : k ≤ m + 10
  · simp [h, Nat.not_lt.2 h]
  · have h' : m + 10 < k := by omega
    simp [h, h']

/-- The valid configurations of R66, on exponents. -/
theorem validate_eq_none_iff (c : CfgIn) : validate c = none ↔
    ∃ k m, c.blockSizeBytes = 2 ^ k ∧ c.capacityKB = 2 ^ m ∧
      ((c.ways = 0 ∧ k ≤ m + 10 ∧ k ≤ 32) ∨ ∃ j, c.ways = 2 ^ j ∧ k + j ≤ m + 10 ∧ m + 10 - j ≤ 32) := by
  obtain ⟨b, w, kb⟩ := c
  constructor
  · intro h
    obtain ⟨hb, hc, hw⟩ : isPow2 b = true ∧ isPow2 kb = true ∧ (w = 0 ∨ isPow2 w = true) := by
      unfold validate at h
      cases hb : isPow2 b <;> cases hc : isPow2 kb <;> cases hw : isPow2 w <;> by_cases hz : w = 0 <;>
        simp_all
    obtain ⟨k, rfl⟩ := (isPow2_iff b).1 hb
    obtain ⟨m, rfl⟩ := (isPow2_iff kb).1 hc
    refine ⟨k, m, rfl, rfl, ?_⟩
    rcases hw with rfl | hw
    · rw [validate_zero_ways] at h
      split at h
      · cases h
      · split at h
        · cases h
        · exact .inl ⟨rfl, by omega, by omega⟩
    · obtain ⟨j, rfl⟩ := (isPow2_iff w).1 hw
      rw [validate_two_pow] at h
      split at h
      · cases h
      · split at h
        · cases h
        · exact .inr ⟨j, rfl, by omega, by omega⟩
  · rintro ⟨k, m, hb, hc, h⟩
    simp only at hb hc
    subst hb hc
    rcases h with ⟨hw, h1, h2⟩ | ⟨j, hw, h1, h2⟩
    · simp only at hw
      subst hw
      rw [validate_zero_ways, if_neg (by omega), if_neg (by omega)]
    · simp only at hw
      subst hw
      rw [validate_two_pow, if_neg (by omega), if_neg (by omega)]

/-- R64 on exponents. -/
theorem deriveGeometry_two_pow {k j m : Nat} (h : k + j ≤ m + 10) : deriveGeometry ⟨2 ^ k, 2 ^ j, 2 ^ m⟩ =
    { variant := if j = 0 then .directMapped else .setAssociative
      capacityBytes := 2 ^ m * 1024
      offsetBits := k
      indexBits := m + 10 - k - j
      tagBits := 32 - (m + 10 - k - j) - k
      numSets := 2 ^ (m + 10 - k - j)
      numWays := 2 ^ j } := by
  simp only [deriveGeometry, numSetsOf_two_pow h, variantOf_two_pow, Nat.log2_two_pow, Config.addrWidth,
    capacityBytesOf, numWaysOf, two_pow_ne_zero, if_false]

/-- R65 on exponents. -/
theorem deriveGeometry_zero_ways {k m : Nat} (h : k ≤ m + 10) : deriveGeometry ⟨2 ^ k, 0, 2 ^ m⟩ =
    { variant := .fullyAssociative
      capacityBytes := 2 ^ m * 1024
      offsetBits := k
      indexBits := 0
      tagBits := 32 - k
      numSets := 1
      numWays := 2 ^ (m + 10 - k) } := by
  have e : Nat.log2 (numSetsOf ⟨2 ^ k, 0, 2 ^ m⟩) = 0 := by
    show Nat.log2 (2 ^ 0) = 0
    rw [Nat.log2_two_pow]
  simp only [deriveGeometry, e, numWaysOf_two_pow h, Nat.log2_two_pow, Config.addrWidth, capacityBytesOf, variantOf,
    Nat.sub_zero]
  rfl

/-- What the rules after construction use of a valid geometry: the widths, the block size, and at least one way. -/
structure Geometry.Sound (g : Geometry) (blockSizeBytes : Nat) : Prop where
  offset_le : g.offsetBits + g.indexBits ≤ 32
  tagBits : g.tagBits = 32 - (g.offsetBits + g.indexBits)
  block : blockSizeBytes = 2 ^ g.offsetBits
  numSets : g.numSets = 2 ^ g.indexBits
  numWays_pos : 0 < g.numWays

theorem Geometry.sound_of_valid {c : CfgIn} (h : validate c = none) :
    (deriveGeometry c).Sound c.blockSizeBytes := by
  obtain ⟨b, w, kb⟩ := c
  obtain ⟨k, m, hb, hc, h⟩ := (validate_eq_none_iff _).1 h
  simp only at hb hc
  subst hb hc
  rcases h with ⟨hw, h1, h2⟩ | ⟨j, hw, h1, h2⟩
  · simp only at hw
    subst hw
    rw [deriveGeometry_zero_ways h1]
    exact ⟨by simp only; omega, by simp only; omega, rfl, rfl, two_pow_pos _⟩
  · simp only at hw
    subst hw
    rw [deriveGeometry_two_pow h1]
    exact ⟨by simp only; omega, by simp only; omega, rfl, rfl, two_pow_pos _⟩

/-! ### The fields of an address -/

@[simp] theorem fieldsOf_offset (g : Geometry) (a : Address) :
    (g.fieldsOf a).offset = a.toNat % 2 ^ g.offsetBits := by
  simp [Geometry.fieldsOf, bitField]

@[simp] theorem fieldsOf_index (g : Geometry) (a : Address) :
    (g.fieldsOf a).index = a.toNat / 2 ^ g.offsetBits % 2 ^ g.indexBits := rfl

theorem fieldsOf_index_lt (g : Geometry) (a : Address) : (g.fieldsOf a).index < 2 ^ g.indexBits :=
  Nat.mod_lt _ (two_pow_pos _)

/-- The tag is all that is above index and offset. -/
theorem fieldsOf_tag {g : Geometry} (a : Address) (h : g.offsetBits + g.indexBits ≤ 32) :
    (g.fieldsOf a).tag = a.toNat / 2 ^ g.offsetBits / 2 ^ g.indexBits := by
  simp only [Geometry.fieldsOf, bitField, Config.addrWidth]
  rw [Nat.div_div_eq_div_mul, ← Nat.pow_add]
  apply Nat.mod_eq_of_lt
  rw [Nat.div_lt_iff_lt_mul (two_pow_pos _), ← Nat.pow_add]
  have := a.isLt
  rwa [show 32 - (g.offsetBits + g.indexBits) + (g.offsetBits + g.indexBits) = 32 by omega]

theorem Geometry.Sound.tag_lt {g : Geometry} {b : Nat} (hg : g.Sound b) (a : Address) :
    (g.fieldsOf a).tag < 2 ^ g.tagBits := by
  rw [hg.tagBits]
  exact Nat.mod_lt _ (two_pow_pos _)

/-- Tag and index together are the block number. -/
theorem Geometry.Sound.block_number {g : Geometry} {b : Nat} (hg : g.Sound b) (a : Address) :
    (g.fieldsOf a).tag * 2 ^ g.indexBits + (g.fieldsOf a).index = a.toNat / b := by
  rw [fieldsOf_tag a hg.offset_le, fieldsOf_index, hg.block, Nat.mul_comm]
  exact Nat.div_add_mod _ _

/-- COMPOSE never wraps for the operands R71 gives it (R61 c). -/
theorem Geometry.Sound.compose_toNat {g : Geometry} {b : Nat} (hg : g.Sound b) {t i : Nat}
    (ht : t < 2 ^ g.tagBits) (hi : i < 2 ^ g.indexBits) :
    (g.composeOf t i).toNat = t * 2 ^ (g.indexBits + g.offsetBits) + i * 2 ^ g.offsetBits := by
  have hlt : t * 2 ^ (g.indexBits + g.offsetBits) + i * 2 ^ g.offsetBits < 2 ^ 32 := by
    have e : (2 : Nat) ^ 32 = 2 ^ g.tagBits * 2 ^ g.indexBits * 2 ^ g.offsetBits := by
      rw [← Nat.pow_add, ← Nat.pow_add]
      congr 1
      have := hg.tagBits; have := hg.offset_le
      omega
    have e' : t * 2 ^ (g.indexBits + g.offsetBits) + i * 2 ^ g.offsetBits =
        (t * 2 ^ g.indexBits + i) * 2 ^ g.offsetBits := by rw [Nat.pow_add]; ring
    rw [e, e']
    refine Nat.mul_lt_mul_of_pos_right ?_ (two_pow_pos _)
    calc t * 2 ^ g.indexBits + i < t * 2 ^ g.indexBits + 2 ^ g.indexBits := by omega
      _ = (t + 1) * 2 ^ g.indexBits := by ring
      _ ≤ 2 ^ g.tagBits * 2 ^ g.indexBits := Nat.mul_le_mul_right _ ht
  rw [Geometry.composeOf, if_pos (by simp [Geometry.composable, ht, hi]), BitVec.toNat_ofNat, Nat.mod_eq_of_lt hlt]

/-- DECODE of COMPOSE (R72). -/
theorem Geometry.Sound.fieldsOf_compose {g : Geometry} {b : Nat} (hg : g.Sound b) {t i : Nat}
    (ht : t < 2 ^ g.tagBits) (hi : i < 2 ^ g.indexBits) :
    g.fieldsOf (g.composeOf t i) = { tag := t, index := i, offset := 0 } := by
  have h := hg.compose_toNat ht hi
  have e : (g.composeOf t i).toNat = (t * 2 ^ g.indexBits + i) * 2 ^ g.offsetBits := by
    rw [h, Nat.pow_add]; ring
  have ediv : (g.composeOf t i).toNat / 2 ^ g.offsetBits = t * 2 ^ g.indexBits + i := by
    rw [e, Nat.mul_div_cancel _ (two_pow_pos _)]
  have htag : (g.fieldsOf (g.composeOf t i)).tag = t := by
    rw [fieldsOf_tag _ hg.offset_le, ediv, Nat.mul_comm, Nat.mul_add_div (two_pow_pos _), Nat.div_eq_of_lt hi,
      Nat.add_zero]
  have hidx : (g.fieldsOf (g.composeOf t i)).index = i := by
    rw [fieldsOf_index, ediv, Nat.mul_comm, Nat.mul_add_mod, Nat.mod_eq_of_lt hi]
  have hoff : (g.fieldsOf (g.composeOf t i)).offset = 0 := by
    rw [fieldsOf_offset, e, Nat.mul_mod_left]
  generalize g.fieldsOf (g.composeOf t i) = f at htag hidx hoff
  cases f
  simp_all

end Sys2Proof.Machine
end

