-- ==== Sys2Proof/Laws/Sparse.lean ====
section
/-! SUPPORT. The laws of sparse arrays: read after write, and the canonical order. -/

namespace Sys2Proof.Machine

variable {α : Type}

@[simp] theorem lookup_nil (k : Nat) : lookup k ([] : List (Nat × α)) = none := rfl

@[simp] theorem lookup_cons (k : Nat) (e : Nat × α) (t : List (Nat × α)) :
    lookup k (e :: t) = if e.1 = k then some e.2 else lookup k t := rfl

/-- Reading after listing a value for a key. -/
theorem lookup_insertKey (k j : Nat) (v : α) (m : List (Nat × α)) :
    lookup k (insertKey j v m) = if k = j then some v else lookup k m := by
  induction m with
  | nil => simp [insertKey, eq_comm]
  | cons e t ih =>
    simp only [insertKey]
    split
    · simp [eq_comm]
    · split
      · next h =>
        by_cases hk : k = j
        · simp [hk]
        · have : e.1 ≠ k := by omega
          simp [hk, Ne.symm hk, this]
      · next h =>
        by_cases he : e.1 = k
        · have : k ≠ j := fun hk => h (by omega)
          simp [he, this]
        · simp [he, ih]

/-- Reading after unlisting a key. -/
theorem lookup_eraseKey (k j : Nat) (m : List (Nat × α)) :
    lookup k (eraseKey j m) = if k = j then none else lookup k m := by
  induction m with
  | nil => simp [eraseKey]
  | cons e t ih =>
    simp only [eraseKey, List.filter_cons]
    simp only [eraseKey] at ih
    split
    · next h =>
      by_cases he : e.1 = k
      · have : k ≠ j := by simp at h; omega
        simp [he, this]
      · simp [he, ih]
    · next h =>
      have : e.1 = j := by simpa using h
      rw [ih]
      by_cases hk : k = j
      · simp [hk]
      · have : e.1 ≠ k := by omega
        simp [hk, this]

/-- A listed value is found under its key or a listed entry before it has the same key. -/
theorem mem_of_lookup {k : Nat} {v : α} {m : List (Nat × α)} (h : lookup k m = some v) : (k, v) ∈ m := by
  induction m with
  | nil => cases h
  | cons e t ih =>
    simp only [lookup_cons] at h
    split at h
    · next he => cases h; exact List.mem_cons.2 (.inl (by subst he; rfl))
    · exact List.mem_cons.2 (.inr (ih h))

theorem lookup_eq_none {k : Nat} {m : List (Nat × α)} : lookup k m = none ↔ ∀ e ∈ m, e.1 ≠ k := by
  induction m with
  | nil => simp
  | cons e t ih =>
    simp only [lookup_cons, List.mem_cons, forall_eq_or_imp, ← ih]
    by_cases he : e.1 = k <;> simp [he]

/-! ### The canonical order -/

theorem risingFrom_some_iff (b : Nat) (m : List (Nat × α)) :
    risingFrom (some b) m = true ↔ (∀ e ∈ m, b < e.1) ∧ keysRising m = true := by
  induction m generalizing b with
  | nil => simp [risingFrom, keysRising]
  | cons e t ih =>
    simp only [risingFrom, keysRising, Bool.and_eq_true, decide_eq_true_eq, ih, List.mem_cons, forall_eq_or_imp,
      true_and]
    constructor
    · rintro ⟨hb, hall, hr⟩
      exact ⟨⟨hb, fun x hx => Nat.lt_trans hb (hall x hx)⟩, hall, hr⟩
    · rintro ⟨⟨hb, _⟩, hall, hr⟩
      exact ⟨hb, hall, hr⟩

@[simp] theorem keysRising_nil : keysRising ([] : List (Nat × α)) = true := rfl

/-- A sparse array is in order when its first key is below the others and the rest is in order. -/
theorem keysRising_cons (e : Nat × α) (t : List (Nat × α)) :
    keysRising (e :: t) = true ↔ (∀ x ∈ t, e.1 < x.1) ∧ keysRising t = true := by
  rw [keysRising, risingFrom, Bool.true_and, risingFrom_some_iff]

/-- In order, an entry is listed exactly when it is what its key reads as. -/
theorem lookup_eq_some {k : Nat} {v : α} {m : List (Nat × α)} (h : keysRising m = true) :
    lookup k m = some v ↔ (k, v) ∈ m := by
  refine ⟨mem_of_lookup, fun hm => ?_⟩
  induction m with
  | nil => cases hm
  | cons e t ih =>
    obtain ⟨hall, ht⟩ := (keysRising_cons e t).1 h
    rcases List.mem_cons.1 hm with rfl | hm
    · simp
    · have := hall _ hm
      simp only [lookup_cons]
      rw [if_neg (by omega)]
      exact ih ht hm

theorem mem_insertKey {k : Nat} {v : α} {m : List (Nat × α)} {e : Nat × α} (h : e ∈ insertKey k v m) :
    e = (k, v) ∨ e ∈ m := by
  induction m with
  | nil => simpa [insertKey] using h
  | cons x t ih =>
    simp only [insertKey] at h
    split at h
    · simpa using h
    · split at h
      · rcases List.mem_cons.1 h with h | h
        · exact .inl h
        · exact .inr (List.mem_cons.2 (.inr h))
      · rcases List.mem_cons.1 h with h | h
        · exact .inr (List.mem_cons.2 (.inl h))
        · rcases ih h with h | h
          · exact .inl h
          · exact .inr (List.mem_cons.2 (.inr h))

/-- Listing a value keeps the order. -/
theorem keysRising_insertKey (k : Nat) (v : α) {m : List (Nat × α)} (h : keysRising m = true) :
    keysRising (insertKey k v m) = true := by
  induction m with
  | nil => rfl
  | cons e t ih =>
    obtain ⟨hall, ht⟩ := (keysRising_cons e t).1 h
    simp only [insertKey]
    split
    · next hk =>
      refine (keysRising_cons _ _).2 ⟨fun x hx => ?_, h⟩
      rcases List.mem_cons.1 hx with rfl | hx
      · exact hk
      · exact Nat.lt_trans hk (hall x hx)
    · split
      · next hk => exact (keysRising_cons _ _).2 ⟨fun x hx => hk ▸ hall x hx, ht⟩
      · next hk hk' =>
        refine (keysRising_cons _ _).2 ⟨fun x hx => ?_, ih ht⟩
        rcases mem_insertKey hx with rfl | hx
        · simp only; omega
        · exact hall x hx

/-- Unlisting a key keeps the order. -/
theorem keysRising_eraseKey (k : Nat) {m : List (Nat × α)} (h : keysRising m = true) :
    keysRising (eraseKey k m) = true := by
  induction m with
  | nil => rfl
  | cons e t ih =>
    obtain ⟨hall, ht⟩ := (keysRising_cons e t).1 h
    simp only [eraseKey, List.filter_cons]
    split
    · exact (keysRising_cons _ _).2 ⟨fun x hx => hall x (List.mem_of_mem_filter hx), ih ht⟩
    · exact ih ht

theorem keysRising_map {β : Type} (f : Nat × α → Nat × β) (hf : ∀ e, (f e).1 = e.1) (m : List (Nat × α)) :
    keysRising (m.map f) = keysRising m := by
  induction m with
  | nil => rfl
  | cons e t ih =>
    rw [Bool.eq_iff_iff, List.map_cons, keysRising_cons, keysRising_cons, ih, List.forall_mem_map]
    simp only [hf]

/-- Two arrays in order that read alike are equal. -/
theorem eq_of_lookup {m n : List (Nat × α)} (hm : keysRising m = true) (hn : keysRising n = true)
    (h : ∀ k, lookup k m = lookup k n) : m = n := by
  induction m generalizing n with
  | nil =>
    cases n with
    | nil => rfl
    | cons e t => have := h e.1; simp at this
  | cons e t ih =>
    cases n with
    | nil => have := h e.1; simp at this
    | cons e' t' =>
      obtain ⟨hall, ht⟩ := (keysRising_cons e t).1 hm
      obtain ⟨hall', ht'⟩ := (keysRising_cons e' t').1 hn
      have h1 : (e.1, e.2) ∈ e' :: t' := mem_of_lookup (by rw [← h]; simp)
      have h2 : (e'.1, e'.2) ∈ e :: t := mem_of_lookup (by rw [h]; simp)
      have hee : e = e' := by
        rcases List.mem_cons.1 h1 with h1 | h1
        · exact h1
        · rcases List.mem_cons.1 h2 with h2 | h2
          · exact h2.symm
          · have a := hall' _ h1; have b := hall _ h2; simp only at a b; omega
      subst hee
      refine congrArg (e :: ·) (ih ht ht' fun k => ?_)
      have := h k
      simp only [lookup_cons] at this
      by_cases hk : e.1 = k
      · rw [lookup_eq_none.2 fun x hx => by have := hall x hx; omega,
          lookup_eq_none.2 fun x hx => by have := hall' x hx; omega]
      · simpa [hk] using this

/-- Listing again what a key reads as changes nothing. -/
theorem insertKey_eq_self {k : Nat} {v : α} {m : List (Nat × α)} (h : keysRising m = true)
    (hl : lookup k m = some v) : insertKey k v m = m :=
  eq_of_lookup (keysRising_insertKey k v h) h fun j => by
    rw [lookup_insertKey]
    split
    · next hj => rw [hj, hl]
    · rfl

end Sys2Proof.Machine
end

