-- ==== Sys2Proof/Laws/State.lean ====
section
/-! SUPPORT. The fields of the state under each named update, true by unfolding, and the level and reply accessors. -/

namespace Sys2Proof.Machine

open Sys2Proof

@[simp] theorem State.level_l1 (s : State) : s.level .l1 = s.l1 := rfl
@[simp] theorem State.level_l2 (s : State) : s.level .l2 = s.l2 := rfl
@[simp] theorem State.reply_l1 (s : State) : s.reply .l1 = s.l1Reply := rfl
@[simp] theorem State.reply_l2 (s : State) : s.reply .l2 = s.l2Reply := rfl

/-! ### setLevel -/

@[simp] theorem State.setLevel_l1 (s : State) (c : CacheLevel) : s.setLevel .l1 c = { s with l1 := c } := rfl
@[simp] theorem State.setLevel_l2 (s : State) (c : CacheLevel) : s.setLevel .l2 c = { s with l2 := c } := rfl

@[simp] theorem State.setLevel_level (s : State) (l : LevelId) (c : CacheLevel) : (s.setLevel l c).level l = c := by
  cases l <;> rfl

theorem State.setLevel_level_ne (s : State) {l l' : LevelId} (c : CacheLevel) (h : l' ≠ l) :
    (s.setLevel l c).level l' = s.level l' := by
  cases l <;> cases l' <;> first | rfl | exact absurd rfl h

theorem State.setLevel_self (s : State) (l : LevelId) : s.setLevel l (s.level l) = s := by cases l <;> rfl

@[simp] theorem State.setLevel_cfgError (s : State) (l : LevelId) (c : CacheLevel) :
    (s.setLevel l c).cfgError = s.cfgError := by cases l <;> rfl
@[simp] theorem State.setLevel_l1State (s : State) (l : LevelId) (c : CacheLevel) :
    (s.setLevel l c).l1State = s.l1State := by cases l <;> rfl
@[simp] theorem State.setLevel_l2State (s : State) (l : LevelId) (c : CacheLevel) :
    (s.setLevel l c).l2State = s.l2State := by cases l <;> rfl
@[simp] theorem State.setLevel_reply (s : State) (l l' : LevelId) (c : CacheLevel) :
    (s.setLevel l c).reply l' = s.reply l' := by cases l <;> cases l' <;> rfl
@[simp] theorem State.setLevel_decoded (s : State) (l : LevelId) (c : CacheLevel) :
    (s.setLevel l c).decoded = s.decoded := by cases l <;> rfl
@[simp] theorem State.setLevel_composed (s : State) (l : LevelId) (c : CacheLevel) :
    (s.setLevel l c).composed = s.composed := by cases l <;> rfl
@[simp] theorem State.setLevel_inputs (s : State) (l : LevelId) (c : CacheLevel) :
    (s.setLevel l c).inputs = s.inputs := by cases l <;> rfl
@[simp] theorem State.setLevel_bench (s : State) (l : LevelId) (c : CacheLevel) :
    (s.setLevel l c).bench = s.bench := by cases l <;> rfl

/-! ### setReply -/

@[simp] theorem State.setReply_level (s : State) (l l' : LevelId) (r : Reply) :
    (s.setReply l r).level l' = s.level l' := by cases l <;> cases l' <;> rfl
@[simp] theorem State.setReply_l1 (s : State) (l : LevelId) (r : Reply) : (s.setReply l r).l1 = s.l1 := by
  cases l <;> rfl
@[simp] theorem State.setReply_l2 (s : State) (l : LevelId) (r : Reply) : (s.setReply l r).l2 = s.l2 := by
  cases l <;> rfl
@[simp] theorem State.setReply_reply (s : State) (l : LevelId) (r : Reply) : (s.setReply l r).reply l = r := by
  cases l <;> rfl
theorem State.setReply_reply_ne (s : State) {l l' : LevelId} (r : Reply) (h : l' ≠ l) :
    (s.setReply l r).reply l' = s.reply l' := by
  cases l <;> cases l' <;> first | rfl | exact absurd rfl h
@[simp] theorem State.setReply_cfgError (s : State) (l : LevelId) (r : Reply) :
    (s.setReply l r).cfgError = s.cfgError := by cases l <;> rfl
@[simp] theorem State.setReply_l1State (s : State) (l : LevelId) (r : Reply) :
    (s.setReply l r).l1State = s.l1State := by cases l <;> rfl
@[simp] theorem State.setReply_l2State (s : State) (l : LevelId) (r : Reply) :
    (s.setReply l r).l2State = s.l2State := by cases l <;> rfl
@[simp] theorem State.setReply_decoded (s : State) (l : LevelId) (r : Reply) :
    (s.setReply l r).decoded = s.decoded := by cases l <;> rfl
@[simp] theorem State.setReply_composed (s : State) (l : LevelId) (r : Reply) :
    (s.setReply l r).composed = s.composed := by cases l <;> rfl
@[simp] theorem State.setReply_inputs (s : State) (l : LevelId) (r : Reply) :
    (s.setReply l r).inputs = s.inputs := by cases l <;> rfl
@[simp] theorem State.setReply_bench (s : State) (l : LevelId) (r : Reply) :
    (s.setReply l r).bench = s.bench := by cases l <;> rfl

/-! ### setResults -/

@[simp] theorem State.setResults_l1 (s : State) (x y : AccessState) : (s.setResults x y).l1 = s.l1 := rfl
@[simp] theorem State.setResults_l2 (s : State) (x y : AccessState) : (s.setResults x y).l2 = s.l2 := rfl
@[simp] theorem State.setResults_level (s : State) (x y : AccessState) (l : LevelId) :
    (s.setResults x y).level l = s.level l := by cases l <;> rfl
@[simp] theorem State.setResults_l1State (s : State) (x y : AccessState) : (s.setResults x y).l1State = x := rfl
@[simp] theorem State.setResults_l2State (s : State) (x y : AccessState) : (s.setResults x y).l2State = y := rfl
@[simp] theorem State.setResults_cfgError (s : State) (x y : AccessState) :
    (s.setResults x y).cfgError = s.cfgError := rfl
@[simp] theorem State.setResults_l1Reply (s : State) (x y : AccessState) :
    (s.setResults x y).l1Reply = s.l1Reply := rfl
@[simp] theorem State.setResults_l2Reply (s : State) (x y : AccessState) :
    (s.setResults x y).l2Reply = s.l2Reply := rfl
@[simp] theorem State.setResults_decoded (s : State) (x y : AccessState) :
    (s.setResults x y).decoded = s.decoded := rfl
@[simp] theorem State.setResults_composed (s : State) (x y : AccessState) :
    (s.setResults x y).composed = s.composed := rfl
@[simp] theorem State.setResults_inputs (s : State) (x y : AccessState) :
    (s.setResults x y).inputs = s.inputs := rfl
@[simp] theorem State.setResults_bench (s : State) (x y : AccessState) :
    (s.setResults x y).bench = s.bench := rfl

/-! ### ConfigError and construction -/

theorem State.raiseConfigError_level (s : State) (l l' : LevelId) (r : ConfigReason) :
    (s.raiseConfigError l r).level l' = CacheLevel.absent (s.level l').epoch := by cases l' <;> rfl
@[simp] theorem State.raiseConfigError_cfgError (s : State) (l : LevelId) (r : ConfigReason) :
    (s.raiseConfigError l r).cfgError = some { level := l, reason := r } := rfl
@[simp] theorem State.raiseConfigError_l1State (s : State) (l : LevelId) (r : ConfigReason) :
    (s.raiseConfigError l r).l1State = s.l1State := rfl
@[simp] theorem State.raiseConfigError_l2State (s : State) (l : LevelId) (r : ConfigReason) :
    (s.raiseConfigError l r).l2State = s.l2State := rfl
@[simp] theorem State.raiseConfigError_inputs (s : State) (l : LevelId) (r : ConfigReason) :
    (s.raiseConfigError l r).inputs = s.inputs := rfl
@[simp] theorem State.raiseConfigError_bench (s : State) (l : LevelId) (r : ConfigReason) :
    (s.raiseConfigError l r).bench = s.bench := rfl

@[simp] theorem State.constructLevel_level (s : State) (l : LevelId) (cfg : CfgIn) :
    (s.constructLevel l cfg).level l = (s.level l).construct cfg := by cases l <;> rfl
theorem State.constructLevel_level_ne (s : State) {l l' : LevelId} (cfg : CfgIn) (h : l' ≠ l) :
    (s.constructLevel l cfg).level l' = s.level l' := by
  cases l <;> cases l' <;> first | rfl | exact absurd rfl h
@[simp] theorem State.constructLevel_cfgError (s : State) (l : LevelId) (cfg : CfgIn) :
    (s.constructLevel l cfg).cfgError = none := rfl
@[simp] theorem State.constructLevel_l1State (s : State) (l : LevelId) (cfg : CfgIn) :
    (s.constructLevel l cfg).l1State = .noAction := rfl
@[simp] theorem State.constructLevel_l2State (s : State) (l : LevelId) (cfg : CfgIn) :
    (s.constructLevel l cfg).l2State = .noAction := rfl
@[simp] theorem State.constructLevel_inputs (s : State) (l : LevelId) (cfg : CfgIn) :
    (s.constructLevel l cfg).inputs = s.inputs := by cases l <;> rfl
@[simp] theorem State.constructLevel_bench (s : State) (l : LevelId) (cfg : CfgIn) :
    (s.constructLevel l cfg).bench = s.bench := by cases l <;> rfl

/-- After ConfigError of L1 its failure is remembered; after one of L2 it is not L1's. -/
@[simp] theorem State.l1Failed_raise (s : State) (l : LevelId) (r : ConfigReason) :
    (s.raiseConfigError l r).l1Failed = (l == .l1) := rfl
@[simp] theorem State.l1Failed_construct (s : State) (l : LevelId) (cfg : CfgIn) :
    (s.constructLevel l cfg).l1Failed = false := rfl

/-! ### What is presented, and the block before its construction -/

@[simp] theorem State.present_inputs (s : State) (i : Interaction) : (s.present i).inputs = i :: s.inputs := rfl
@[simp] theorem State.present_bench (s : State) (i : Interaction) : (s.present i).bench = s.bench := rfl
@[simp] theorem State.present_level (s : State) (i : Interaction) (l : LevelId) : (s.present i).level l = s.level l := by
  cases l <;> rfl
@[simp] theorem State.drive_bench (s : State) (pw : PortWord) : (s.drive pw).bench = pw :: s.bench := rfl
@[simp] theorem State.drive_inputs (s : State) (pw : PortWord) : (s.drive pw).inputs = s.inputs := rfl
@[simp] theorem State.drive_level (s : State) (pw : PortWord) (l : LevelId) : (s.drive pw).level l = s.level l := by
  cases l <;> rfl
@[simp] theorem State.unbuilt_level (s : State) (l : LevelId) :
    s.unbuilt.level l = CacheLevel.absent (s.level l).epoch := by cases l <;> rfl
@[simp] theorem State.unbuilt_cfgError (s : State) : s.unbuilt.cfgError = none := rfl
@[simp] theorem State.unbuilt_l1State (s : State) : s.unbuilt.l1State = .noAction := rfl
@[simp] theorem State.unbuilt_l2State (s : State) : s.unbuilt.l2State = .noAction := rfl
@[simp] theorem State.unbuilt_inputs (s : State) : s.unbuilt.inputs = s.inputs := rfl
@[simp] theorem State.unbuilt_bench (s : State) : s.unbuilt.bench = s.bench := rfl

/-! ### Levels: what RESET, construction and writing a set leave in the registers -/

@[simp] theorem CacheLevel.clear_cfg (c : CacheLevel) : c.clear.cfg = c.cfg := rfl
@[simp] theorem CacheLevel.clear_geom (c : CacheLevel) : c.clear.geom = c.geom := rfl
@[simp] theorem CacheLevel.clear_cfgOk (c : CacheLevel) : c.clear.cfgOk = c.cfgOk := rfl
@[simp] theorem CacheLevel.clear_sets (c : CacheLevel) : c.clear.sets = [] := rfl
@[simp] theorem CacheLevel.construct_cfg (c : CacheLevel) (cfg : CfgIn) : (c.construct cfg).cfg = cfg := rfl
@[simp] theorem CacheLevel.construct_geom (c : CacheLevel) (cfg : CfgIn) :
    (c.construct cfg).geom = deriveGeometry cfg := rfl
@[simp] theorem CacheLevel.construct_cfgOk (c : CacheLevel) (cfg : CfgIn) : (c.construct cfg).cfgOk = true := rfl
@[simp] theorem CacheLevel.construct_sets (c : CacheLevel) (cfg : CfgIn) : (c.construct cfg).sets = [] := rfl
@[simp] theorem CacheLevel.absent_cfgOk (n : Nat) : (CacheLevel.absent n).cfgOk = false := rfl
@[simp] theorem CacheLevel.absent_sets (n : Nat) : (CacheLevel.absent n).sets = [] := rfl
@[simp] theorem CacheLevel.absent_epoch (n : Nat) : (CacheLevel.absent n).epoch = n := rfl
@[simp] theorem CacheLevel.putSet_cfg (c : CacheLevel) (k : Nat) (x : CacheSet) : (c.putSet k x).cfg = c.cfg := rfl
@[simp] theorem CacheLevel.putSet_geom (c : CacheLevel) (k : Nat) (x : CacheSet) : (c.putSet k x).geom = c.geom := rfl
@[simp] theorem CacheLevel.putSet_cfgOk (c : CacheLevel) (k : Nat) (x : CacheSet) :
    (c.putSet k x).cfgOk = c.cfgOk := rfl
@[simp] theorem CacheLevel.putSet_epoch (c : CacheLevel) (k : Nat) (x : CacheSet) :
    (c.putSet k x).epoch = c.epoch := rfl

end Sys2Proof.Machine
end

