-- ==== Sys2Proof/Laws/Level.lean ====
section
/-! SUPPORT. What each operation of a level does to the lines and cursors, said once, and that each keeps the tag
array in canonical form. -/

namespace Sys2Proof.Machine

open Sys2Proof

/-! ### Sets -/

/-- Reading a set after writing one. -/
theorem CacheLevel.setAt_putSet (c : CacheLevel) (k j : Nat) (x : CacheSet) :
    (c.putSet k x).setAt j = if j = k then x else c.setAt j := by
  unfold CacheLevel.putSet CacheLevel.setAt
  by_cases hx : x = CacheSet.fresh
  · simp only [hx, if_true, lookup_eraseKey]
    by_cases h : j = k <;> simp [h]
  · simp only [hx, if_false, lookup_insertKey]
    by_cases h : j = k <;> simp [h]

theorem CacheLevel.curAt_putSet (c : CacheLevel) (k j : Nat) (x : CacheSet) :
    (c.putSet k x).curAt j = if j = k then x.cur else c.curAt j := by
  simp only [CacheLevel.curAt, c.setAt_putSet]
  split <;> rfl

theorem CacheLevel.lineAt_putSet (c : CacheLevel) (l : LevelId) (k j w : Nat) (x : CacheSet) :
    (c.putSet k x).lineAt l j w =
      if j = k then (lookup w x.lines).getD (c.unwrittenLine l j w) else c.lineAt l j w := by
  simp only [CacheLevel.lineAt, c.setAt_putSet]
  split <;> rfl

/-- A level without listed sets reads as empty everywhere (R23, R115). -/
theorem CacheLevel.setAt_of_empty {c : CacheLevel} (h : c.sets = []) (k : Nat) : c.setAt k = CacheSet.fresh := by
  simp [CacheLevel.setAt, h]

theorem CacheLevel.lineAt_of_empty {c : CacheLevel} (h : c.sets = []) (l : LevelId) (k w : Nat) :
    c.lineAt l k w = c.unwrittenLine l k w := by
  simp [CacheLevel.lineAt, c.setAt_of_empty h, CacheSet.fresh]

/-- A line that is valid or dirty is a listed one. -/
theorem CacheLevel.lineAt_listed {c : CacheLevel} {l : LevelId} {k w : Nat}
    (h : (c.lineAt l k w).valid = true ∨ (c.lineAt l k w).dirty = true) :
    lookup w (c.setAt k).lines = some (c.lineAt l k w) := by
  unfold CacheLevel.lineAt at h ⊢
  cases hl : lookup w (c.setAt k).lines with
  | none => simp [hl, CacheLevel.unwrittenLine] at h
  | some ln => rfl

/-! ### The canonical form -/

theorem CacheSet.wf_iff (g : Geometry) (x : CacheSet) : x.wf g = true ↔
    keysRising x.lines = true ∧ (∀ e ∈ x.lines, e.1 < g.numWays ∧ e.2.valid = true ∧ e.2.tag < 2 ^ g.tagBits) ∧
      x.cur < g.numWays := by
  simp only [CacheSet.wf, Bool.and_eq_true, List.all_eq_true, decide_eq_true_eq, and_assoc]

theorem CacheLevel.arrayWf_iff (c : CacheLevel) : c.arrayWf = true ↔
    keysRising c.sets = true ∧
      ∀ e ∈ c.sets, e.1 < c.geom.numSets ∧ e.2 ≠ CacheSet.fresh ∧ e.2.wf c.geom = true := by
  simp only [CacheLevel.arrayWf, Bool.and_eq_true, List.all_eq_true, decide_eq_true_eq, and_assoc]

theorem CacheLevel.arrayWf_of_empty {c : CacheLevel} (h : c.sets = []) : c.arrayWf = true := by
  simp [CacheLevel.arrayWf, h]

/-- Writing a set of the level in canonical form keeps the canonical form of the array. -/
theorem CacheLevel.arrayWf_putSet {c : CacheLevel} {k : Nat} {x : CacheSet} (hc : c.arrayWf = true)
    (hk : k < c.geom.numSets) (hx : x.wf c.geom = true) : (c.putSet k x).arrayWf = true := by
  obtain ⟨hr, hall⟩ := c.arrayWf_iff.1 hc
  rw [CacheLevel.arrayWf_iff, c.putSet_geom]
  unfold CacheLevel.putSet
  by_cases hf : x = CacheSet.fresh
  · simp only [hf, if_true]
    exact ⟨keysRising_eraseKey k hr, fun e he => hall e (List.mem_of_mem_filter he)⟩
  · simp only [hf, if_false]
    refine ⟨keysRising_insertKey k x hr, fun e he => ?_⟩
    rcases mem_insertKey he with rfl | he
    · exact ⟨hk, hf, hx⟩
    · exact hall e he

/-- Any set read from an array in canonical form is in canonical form. -/
theorem CacheLevel.wf_setAt {c : CacheLevel} (hc : c.arrayWf = true) (hw : 0 < c.geom.numWays) (k : Nat) :
    (c.setAt k).wf c.geom = true := by
  unfold CacheLevel.setAt
  cases h : lookup k c.sets with
  | none => simp [CacheSet.wf_iff, CacheSet.fresh, hw]
  | some x => exact ((c.arrayWf_iff.1 hc).2 _ (mem_of_lookup h)).2.2

/-- In canonical form the ways of any set are listed in order, whether or not the set has ways. -/
theorem CacheLevel.keysRising_setAt {c : CacheLevel} (hc : c.arrayWf = true) (k : Nat) :
    keysRising (c.setAt k).lines = true := by
  unfold CacheLevel.setAt
  cases h : lookup k c.sets with
  | none => rfl
  | some x => exact ((CacheSet.wf_iff _ _).1 ((c.arrayWf_iff.1 hc).2 _ (mem_of_lookup h)).2.2).1

/-- In canonical form a listed line is a line of the set: its way, its valid bit and its tag. -/
theorem CacheLevel.listed_of_arrayWf {c : CacheLevel} (hc : c.arrayWf = true) {k w : Nat} {ln : Line}
    (h : (w, ln) ∈ (c.setAt k).lines) : w < c.geom.numWays ∧ ln.valid = true ∧ ln.tag < 2 ^ c.geom.tagBits := by
  unfold CacheLevel.setAt at h
  cases hl : lookup k c.sets with
  | none => simp [hl, CacheSet.fresh] at h
  | some x =>
    rw [hl] at h
    exact ((CacheSet.wf_iff _ _).1 ((c.arrayWf_iff.1 hc).2 _ (mem_of_lookup hl)).2.2).2.1 _ h

/-! ### MATCH -/

theorem matchEntry_iff (ways tag : Nat) (e : Nat × Line) :
    matchEntry ways tag e = true ↔ e.1 < ways ∧ e.2.valid = true ∧ e.2.tag = tag := by
  simp [matchEntry]

/-- A way matches exactly when it lists a matching line (R76). -/
theorem CacheLevel.matchesAt_iff {c : CacheLevel} (hc : c.arrayWf = true) (l : LevelId) (a : Address) (w : Nat) :
    c.matchesAt l a w ↔ ∃ ln, (w, ln) ∈ (c.setAt (c.selectSet a)).lines ∧
      matchEntry c.geom.numWays (c.fieldsOf a).tag (w, ln) = true := by
  have hr := c.keysRising_setAt hc (c.selectSet a)
  simp only [CacheLevel.matchesAt, matchEntry_iff]
  constructor
  · rintro ⟨hw, hv, ht⟩
    exact ⟨_, mem_of_lookup (c.lineAt_listed (.inl hv)), hw, hv, ht⟩
  · rintro ⟨ln, hm, hw, hv, ht⟩
    have : c.lineAt l (c.selectSet a) w = ln := by
      simp [CacheLevel.lineAt, (lookup_eq_some hr).2 hm]
    rw [this]
    exact ⟨hw, hv, ht⟩

/-- The hit vector's disjunction says that some way matches (R76). -/
theorem CacheLevel.matchHit_iff {c : CacheLevel} (hc : c.arrayWf = true) (l : LevelId) (a : Address) :
    c.matchHit a = true ↔ c.isHit l a := by
  simp only [CacheLevel.matchHit, List.any_eq_true, CacheLevel.isHit, c.matchesAt_iff hc]
  constructor
  · rintro ⟨⟨w, ln⟩, hm, h⟩; exact ⟨w, ln, hm, h⟩
  · rintro ⟨w, ln, hm, h⟩; exact ⟨(w, ln), hm, h⟩

theorem CacheLevel.matchHit_of_empty {c : CacheLevel} (h : c.sets = []) (a : Address) : c.matchHit a = false := by
  simp [CacheLevel.matchHit, c.setAt_of_empty h, CacheSet.fresh]

/-! ### VDIRTY -/

/-- VDIRTY is the dirty bit of the victim slot (R80). -/
theorem CacheLevel.vdirty_eq (c : CacheLevel) (l : LevelId) (a : Address) :
    c.vdirty a = (c.lineAt l (c.selectSet a) (c.selectVictim a)).dirty := by
  unfold CacheLevel.vdirty CacheLevel.lineAt
  cases lookup (c.selectVictim a) (c.setAt (c.selectSet a)).lines <;> rfl

/-! ### FILL -/

@[simp] theorem CacheLevel.fill_cfg (c : CacheLevel) (a : Address) : (c.fill a).cfg = c.cfg := rfl
@[simp] theorem CacheLevel.fill_geom (c : CacheLevel) (a : Address) : (c.fill a).geom = c.geom := rfl
@[simp] theorem CacheLevel.fill_cfgOk (c : CacheLevel) (a : Address) : (c.fill a).cfgOk = c.cfgOk := rfl
@[simp] theorem CacheLevel.fill_epoch (c : CacheLevel) (a : Address) : (c.fill a).epoch = c.epoch := rfl

/-- The set a FILL writes (R81). -/
def CacheLevel.filledSet (c : CacheLevel) (a : Address) : CacheSet where
  lines := insertKey (c.selectVictim a) { tag := (c.fieldsOf a).tag, valid := true, dirty := false }
    (c.setAt (c.selectSet a)).lines
  cur := (c.selectVictim a + 1) % c.geom.numWays

theorem CacheLevel.fill_eq (c : CacheLevel) (a : Address) : c.fill a = c.putSet (c.selectSet a) (c.filledSet a) := rfl

/-- The lines after FILL (R81). -/
theorem CacheLevel.lineAt_fill (c : CacheLevel) (l : LevelId) (a : Address) (k w : Nat) :
    (c.fill a).lineAt l k w =
      if k = c.selectSet a ∧ w = c.selectVictim a then { tag := (c.fieldsOf a).tag, valid := true, dirty := false }
      else c.lineAt l k w := by
  rw [c.fill_eq, c.lineAt_putSet, CacheLevel.filledSet, lookup_insertKey]
  by_cases hk : k = c.selectSet a
  · subst hk
    by_cases hw : w = c.selectVictim a <;> simp [hw, CacheLevel.lineAt]
  · simp [hk]

/-- The cursors after FILL (R81). -/
theorem CacheLevel.curAt_fill (c : CacheLevel) (a : Address) (k : Nat) :
    (c.fill a).curAt k = if k = c.selectSet a then (c.curAt k + 1) % c.geom.numWays else c.curAt k := by
  rw [c.fill_eq, c.curAt_putSet]
  split
  · next h => subst h; rfl
  · rfl

theorem CacheLevel.setAt_fill_ne (c : CacheLevel) (a : Address) {k : Nat} (h : k ≠ c.selectSet a) :
    (c.fill a).setAt k = c.setAt k := by
  rw [c.fill_eq, c.setAt_putSet, if_neg h]

/-- A FILL keeps the canonical form. -/
theorem CacheLevel.arrayWf_fill {c : CacheLevel} {b : Nat} (hc : c.arrayWf = true) (hg : c.geom.Sound b)
    (a : Address) : (c.fill a).arrayWf = true := by
  obtain ⟨hr, hall, hcur⟩ := (CacheSet.wf_iff _ _).1 (c.wf_setAt hc hg.numWays_pos (c.selectSet a))
  refine CacheLevel.arrayWf_putSet hc ?_ ((CacheSet.wf_iff _ _).2 ⟨?_, ?_, ?_⟩)
  · rw [hg.numSets]; exact fieldsOf_index_lt _ _
  · exact keysRising_insertKey _ _ hr
  · intro e he
    rcases mem_insertKey he with rfl | he
    · exact ⟨hcur, rfl, hg.tag_lt a⟩
    · exact hall e he
  · exact Nat.mod_lt _ hg.numWays_pos

/-! ### PROBE_WR -/

/-- Dirtying lines changes no key, tag or valid bit, and clears no dirty bit. -/
theorem lookup_dirtyMatching (mm : MultiMatch) (p : Nat × Line → Bool) (m : List (Nat × Line)) (k : Nat) :
    lookup k (dirtyMatching mm p m) = lookup k m ∨
      lookup k (dirtyMatching mm p m) = (lookup k m).map fun ln => { ln with dirty := true } := by
  cases mm with
  | lowest =>
    induction m with
    | nil => exact .inl rfl
    | cons e t ih =>
      simp only [dirtyMatching, dirtyFirst] at ih ⊢
      by_cases hp : p e = true
      · simp only [hp, if_true, lookup_cons]
        by_cases hk : e.1 = k <;> simp [hk]
      · simp only [hp, lookup_cons]
        by_cases hk : e.1 = k
        · simp [hk]
        · simpa [hk] using ih
  | all =>
    induction m with
    | nil => exact .inl rfl
    | cons e t ih =>
      simp only [dirtyMatching, dirtyEvery, List.map_cons] at ih ⊢
      by_cases hp : p e = true
      · simp only [hp, if_true, lookup_cons]
        by_cases hk : e.1 = k
        · simp [hk]
        · simpa [hk] using ih
      · simp only [hp, lookup_cons]
        by_cases hk : e.1 = k
        · simp [hk]
        · simpa [hk] using ih

theorem dirtyMatching_keys (mm : MultiMatch) (p : Nat × Line → Bool) (m : List (Nat × Line)) :
    (dirtyMatching mm p m).map Prod.fst = m.map Prod.fst := by
  cases mm with
  | lowest =>
    induction m with
    | nil => rfl
    | cons e t ih =>
      simp only [dirtyMatching, dirtyFirst] at ih ⊢
      split <;> simp [ih]
  | all =>
    simp only [dirtyMatching, dirtyEvery, List.map_map]
    refine List.map_congr_left fun e _ => ?_
    simp only [Function.comp]
    split <;> rfl

theorem mem_dirtyMatching {mm : MultiMatch} {p : Nat × Line → Bool} {m : List (Nat × Line)} {e : Nat × Line}
    (h : e ∈ dirtyMatching mm p m) : ∃ d, (e.1, { e.2 with dirty := d }) ∈ m := by
  cases mm with
  | lowest =>
    induction m with
    | nil => cases h
    | cons x t ih =>
      simp only [dirtyMatching, dirtyFirst] at ih h
      split at h
      · rcases List.mem_cons.1 h with rfl | h
        · exact ⟨x.2.dirty, List.mem_cons.2 (.inl rfl)⟩
        · exact ⟨e.2.dirty, List.mem_cons.2 (.inr h)⟩
      · rcases List.mem_cons.1 h with rfl | h
        · exact ⟨e.2.dirty, List.mem_cons.2 (.inl rfl)⟩
        · obtain ⟨d, hd⟩ := ih h
          exact ⟨d, List.mem_cons.2 (.inr hd)⟩
  | all =>
    simp only [dirtyMatching, dirtyEvery, List.mem_map] at h
    obtain ⟨x, hx, rfl⟩ := h
    refine ⟨x.2.dirty, ?_⟩
    split <;> exact hx

theorem keysRising_iff_keys {α β : Type} {m : List (Nat × α)} {n : List (Nat × β)}
    (h : m.map Prod.fst = n.map Prod.fst) : keysRising m = keysRising n := by
  have e : ∀ {γ : Type} (k : List (Nat × γ)), keysRising k = keysRising (k.map fun x => (x.1, ())) :=
    fun {γ} k => (keysRising_map (fun x : Nat × γ => (x.1, ())) (fun _ => rfl) k).symm
  have e' : ∀ {γ : Type} (k : List (Nat × γ)), (k.map fun x => (x.1, ())) = (k.map Prod.fst).map fun x => (x, ()) :=
    fun k => by simp
  rw [e m, e n, e' m, e' n, h]

@[simp] theorem CacheLevel.probeWr_cfg (mm : MultiMatch) (c : CacheLevel) (a : Address) :
    (c.probeWr mm a).cfg = c.cfg := by unfold CacheLevel.probeWr; split <;> rfl
@[simp] theorem CacheLevel.probeWr_geom (mm : MultiMatch) (c : CacheLevel) (a : Address) :
    (c.probeWr mm a).geom = c.geom := by unfold CacheLevel.probeWr; split <;> rfl
@[simp] theorem CacheLevel.probeWr_cfgOk (mm : MultiMatch) (c : CacheLevel) (a : Address) :
    (c.probeWr mm a).cfgOk = c.cfgOk := by unfold CacheLevel.probeWr; split <;> rfl
@[simp] theorem CacheLevel.probeWr_epoch (mm : MultiMatch) (c : CacheLevel) (a : Address) :
    (c.probeWr mm a).epoch = c.epoch := by unfold CacheLevel.probeWr; split <;> rfl

/-- A write probe that misses changes nothing (R79). -/
theorem CacheLevel.probeWr_miss (mm : MultiMatch) {c : CacheLevel} {a : Address} (h : c.matchHit a = false) :
    c.probeWr mm a = c := by simp [CacheLevel.probeWr, h]

theorem CacheLevel.setAt_probeWr_ne (mm : MultiMatch) (c : CacheLevel) (a : Address) {k : Nat}
    (h : k ≠ c.selectSet a) : (c.probeWr mm a).setAt k = c.setAt k := by
  unfold CacheLevel.probeWr
  split
  · simp only [c.setAt_putSet, if_neg h]
  · rfl

/-- A write probe moves no cursor (R79). -/
theorem CacheLevel.curAt_probeWr (mm : MultiMatch) (c : CacheLevel) (a : Address) (k : Nat) :
    (c.probeWr mm a).curAt k = c.curAt k := by
  unfold CacheLevel.probeWr
  split
  · simp only [c.curAt_putSet]
    split
    · next h => subst h; rfl
    · rfl
  · rfl

/-- A write probe leaves a line as it is or sets its dirty bit, the latter on a listed line only (R79). -/
theorem CacheLevel.lineAt_probeWr (mm : MultiMatch) (c : CacheLevel) (l : LevelId) (a : Address) (k w : Nat) :
    (c.probeWr mm a).lineAt l k w = c.lineAt l k w ∨
      ((c.probeWr mm a).lineAt l k w = { c.lineAt l k w with dirty := true } ∧
        lookup w (c.setAt k).lines = some (c.lineAt l k w)) := by
  unfold CacheLevel.probeWr
  split
  · simp only [c.lineAt_putSet]
    split
    · next h =>
      subst h
      rcases lookup_dirtyMatching mm (matchEntry c.geom.numWays (c.fieldsOf a).tag) (c.setAt (c.selectSet a)).lines w
        with h | h
      · rw [h]; exact .inl rfl
      · rw [h]
        unfold CacheLevel.lineAt
        cases hl : lookup w (c.setAt (c.selectSet a)).lines with
        | none => exact .inl rfl
        | some ln => exact .inr ⟨rfl, rfl⟩
    · exact .inl rfl
  · exact .inl rfl

/-- A write probe keeps the canonical form. -/
theorem CacheLevel.arrayWf_probeWr {c : CacheLevel} {b : Nat} (mm : MultiMatch) (hc : c.arrayWf = true)
    (hg : c.geom.Sound b) (a : Address) : (c.probeWr mm a).arrayWf = true := by
  unfold CacheLevel.probeWr
  split
  · obtain ⟨hr, hall, hcur⟩ := (CacheSet.wf_iff _ _).1 (c.wf_setAt hc hg.numWays_pos (c.selectSet a))
    refine CacheLevel.arrayWf_putSet hc ?_ ((CacheSet.wf_iff _ _).2 ⟨?_, ?_, hcur⟩)
    · rw [hg.numSets]; exact fieldsOf_index_lt _ _
    · rw [keysRising_iff_keys (dirtyMatching_keys mm _ _), hr]
    · intro e he
      obtain ⟨d, hd⟩ := mem_dirtyMatching he
      have := hall _ hd
      exact this
  · exact hc

end Sys2Proof.Machine
end

