-- ==== Sys2Proof/Laws/Exec.lean ====
section
/-! SUPPORT. What the meanings answer, said once: when an operation of a level or an access goes on, what it leaves, and
one induction over everything an operation can do to a level. -/

namespace Sys2Proof.Machine

open Sys2Proof

/-! ### The arms of exec -/

theorem exec_read (a : Address) (s : State) : exec (.read a) s = execRead a s := rfl
theorem exec_write (a : Address) (s : State) : exec (.write a) s = execWrite a s := rfl
theorem exec_nop (l : LevelId) (a : Address) (s : State) : exec (.nop l a) s = execNop l a s := rfl
theorem exec_probeRd (l : LevelId) (a : Address) (s : State) : exec (.probeRd l a) s = execProbeRd l a s := rfl
theorem exec_probeWr (l : LevelId) (a : Address) (s : State) : exec (.probeWr l a) s = execProbeWr l a s := rfl
theorem exec_vdirty (l : LevelId) (a : Address) (s : State) : exec (.vdirty l a) s = execVdirty l a s := rfl
theorem exec_fill (l : LevelId) (a : Address) (s : State) : exec (.fill l a) s = execFill l a s := rfl
theorem exec_vaddr (l : LevelId) (a : Address) (s : State) : exec (.vaddr l a) s = execVaddr l a s := rfl
theorem exec_configure (l : LevelId) (b w k : Nat) (s : State) :
    exec (.configure l b w k) s = execConfigure l b w k s := rfl
theorem exec_reset (l : LevelId) (s : State) : exec (.reset l) s = execReset l s := rfl
theorem exec_decode (l : LevelId) (a : Address) (s : State) : exec (.decode l a) s = execDecode l a s := rfl
theorem exec_compose (l : LevelId) (x y : Nat) (s : State) : exec (.compose l x y) s = execCompose l x y s := rfl

@[simp] theorem andThen_next (s : State) (k : State → Host.Outcome State Fault Refusal) :
    andThen (.next s) k = k s := rfl

/-- An operation of a level goes on exactly when the level exists. -/
theorem State.onLevel_next {s t : State} {l : LevelId} {k : CacheLevel → State} :
    s.onLevel l k = .next t ↔ (s.level l).cfgOk = true ∧ t = k (s.level l) := by
  unfold State.onLevel
  split
  · next h => simp [h, eq_comm]
  · next h => simp [h]

theorem State.onLevel_ok {s : State} {l : LevelId} (k : CacheLevel → State) (h : (s.level l).cfgOk = true) :
    s.onLevel l k = .next (k (s.level l)) := by simp [State.onLevel, h]

/-- What an access leaves of the state (R88). -/
def State.afterAccess (s : State) (r : AccessResult) : State :=
  { s with l1 := r.l1, l2 := r.l2, l1State := r.l1State, l2State := r.l2State }

@[simp] theorem State.afterAccess_l1 (s : State) (r : AccessResult) : (s.afterAccess r).l1 = r.l1 := rfl
@[simp] theorem State.afterAccess_l2 (s : State) (r : AccessResult) : (s.afterAccess r).l2 = r.l2 := rfl
@[simp] theorem State.afterAccess_l1State (s : State) (r : AccessResult) : (s.afterAccess r).l1State = r.l1State := rfl
@[simp] theorem State.afterAccess_l2State (s : State) (r : AccessResult) : (s.afterAccess r).l2State = r.l2State := rfl
@[simp] theorem State.afterAccess_cfgError (s : State) (r : AccessResult) : (s.afterAccess r).cfgError = s.cfgError := rfl
@[simp] theorem State.afterAccess_inputs (s : State) (r : AccessResult) : (s.afterAccess r).inputs = s.inputs := rfl
@[simp] theorem State.afterAccess_bench (s : State) (r : AccessResult) : (s.afterAccess r).bench = s.bench := rfl

/-- An access goes on exactly when both levels exist (R109, R117). -/
theorem State.serve_next {s t : State} {k : CacheLevel → CacheLevel → AccessResult} :
    s.serve k = .next t ↔ s.constructed = true ∧ t = s.afterAccess (k s.l1 s.l2) := by
  unfold State.serve
  split
  · next h => simp [h, eq_comm, State.afterAccess, State.setResults]
  · next h => simp [h]

theorem State.serve_ok {s : State} (k : CacheLevel → CacheLevel → AccessResult) (h : s.constructed = true) :
    s.serve k = .next (s.afterAccess (k s.l1 s.l2)) := by
  simp [State.serve, h, State.afterAccess, State.setResults]

theorem State.constructed_iff (s : State) :
    s.constructed = true ↔ s.l1.cfgOk = true ∧ s.l2.cfgOk = true := by simp [State.constructed]

/-! ### The two accesses, by what they find -/

theorem readAccess_hit {c1 : CacheLevel} (c2 : CacheLevel) {a : Address} (h : c1.matchHit a = true) :
    readAccess c1 c2 a = ⟨c1, c2, .readHit, .noAction⟩ := by
  simp [readAccess, CacheLevel.probeRd, h]

/-- L2 after the fills of a read that misses L1 (R89 steps 2a and 2b). -/
def l2AfterReadMiss (c1 c2 : CacheLevel) (a : Address) : CacheLevel :=
  let c2a := if c2.matchHit a then c2 else c2.fill a
  if c1.vdirty a then c2a.fill (c1.vaddr .l1 a) else c2a

theorem readAccess_miss {c1 : CacheLevel} (c2 : CacheLevel) {a : Address} (h : c1.matchHit a = false) :
    readAccess c1 c2 a =
      ⟨c1.fill a, l2AfterReadMiss c1 c2 a, .readMiss, if c2.matchHit a then .readHit else .readMiss⟩ := by
  simp only [readAccess, CacheLevel.probeRd, h, wbMux, l2AfterReadMiss, Bool.false_eq_true, if_false]
  rfl

theorem writeAccess_hit (mm : MultiMatch) {c1 : CacheLevel} (c2 : CacheLevel) {a : Address}
    (h : c1.matchHit a = true) : writeAccess mm c1 c2 a = ⟨c1.probeWr mm a, c2, .writeHit, .noAction⟩ := by
  simp [writeAccess, h]

theorem writeAccess_miss (mm : MultiMatch) {c1 : CacheLevel} (c2 : CacheLevel) {a : Address}
    (h : c1.matchHit a = false) : writeAccess mm c1 c2 a =
      ⟨c1, c2.probeWr mm a, .writeMiss, if c2.matchHit a then .writeHit else .writeMiss⟩ := by
  simp [writeAccess, h, CacheLevel.probeWr_miss mm h]

/-- The result pair of a read is one of the three of R96. -/
theorem readAccess_pair (c1 c2 : CacheLevel) (a : Address) :
    legalPair (readAccess c1 c2 a).l1State (readAccess c1 c2 a).l2State = true := by
  cases h : c1.matchHit a
  · rw [readAccess_miss c2 h]; cases c2.matchHit a <;> rfl
  · rw [readAccess_hit c2 h]; rfl

theorem writeAccess_pair (mm : MultiMatch) (c1 c2 : CacheLevel) (a : Address) :
    legalPair (writeAccess mm c1 c2 a).l1State (writeAccess mm c1 c2 a).l2State = true := by
  cases h : c1.matchHit a
  · rw [writeAccess_miss mm c2 h]; cases c2.matchHit a <;> rfl
  · rw [writeAccess_hit mm c2 h]; rfl

/-! ### CONFIGURE -/

/-- A constructed level refuses CONFIGURE (R120, U10). -/
theorem execConfigure_refused {l : LevelId} {s : State} (b w k : Nat) (h : (s.level l).cfgOk = true) :
    execConfigure l b w k s = .refused (.alreadyConstructed l) := if_pos h

theorem execConfigure_live {l : LevelId} {s : State} (b w k : Nat) (h : (s.level l).cfgOk = false)
    (hf : l = .l2 → s.l1Failed = false) : execConfigure l b w k s = match validate ⟨b, w, k⟩ with
      | some r => .next (s.raiseConfigError l r)
      | none => .next (s.constructLevel l ⟨b, w, k⟩) := by
  have hi : ¬ (l == .l2 && s.l1Failed) = true := by
    cases l with
    | l1 => simp
    | l2 => simp [hf rfl]
  exact (if_neg (by simp [h])).trans (if_neg hi)

/-- Once L1's configuration has failed, L2's changes nothing (R103, R109). -/
theorem execConfigure_inert {s : State} (b w k : Nat) (h : s.l2.cfgOk = false) (hf : s.l1Failed = true) :
    execConfigure .l2 b w k s = .next s := by
  simp [execConfigure, h, hf]

/-- What CONFIGURE answers (R68, R103, R109, R120). -/
theorem execConfigure_cases (l : LevelId) (b w k : Nat) (s : State) :
    ((s.level l).cfgOk = true ∧ execConfigure l b w k s = .refused (.alreadyConstructed l)) ∨
    (s.level l).cfgOk = false ∧
      ((l = .l2 ∧ s.l1Failed = true ∧ execConfigure l b w k s = .next s) ∨
      (∃ r, validate ⟨b, w, k⟩ = some r ∧ execConfigure l b w k s = .next (s.raiseConfigError l r)) ∨
      (validate ⟨b, w, k⟩ = none ∧ execConfigure l b w k s = .next (s.constructLevel l ⟨b, w, k⟩))) := by
  cases hc : (s.level l).cfgOk with
  | true => exact .inl ⟨rfl, execConfigure_refused b w k hc⟩
  | false =>
    refine .inr ⟨rfl, ?_⟩
    by_cases h : l = .l2 ∧ s.l1Failed = true
    · obtain ⟨rfl, hf⟩ := h
      exact .inl ⟨rfl, hf, execConfigure_inert b w k hc hf⟩
    · rw [execConfigure_live b w k hc fun hl => by simpa [hl] using h]
      cases validate ⟨b, w, k⟩ with
      | none => exact .inr (.inr ⟨rfl, rfl⟩)
      | some r => exact .inr (.inl ⟨r, rfl, rfl⟩)

/-- What CONFIGURE leaves when it goes on: its level did not exist before. -/
theorem exec_configure_next {l : LevelId} {b w k : Nat} {s t : State} (h : exec (.configure l b w k) s = .next t) :
    (s.level l).cfgOk = false ∧
      ((l = .l2 ∧ s.l1Failed = true ∧ t = s) ∨
      (∃ r, validate ⟨b, w, k⟩ = some r ∧ t = s.raiseConfigError l r) ∨
      (validate ⟨b, w, k⟩ = none ∧ t = s.constructLevel l ⟨b, w, k⟩)) := by
  rcases execConfigure_cases l b w k s with ⟨-, he⟩ | ⟨hc, ⟨hl, hf, he⟩ | ⟨r, hv, he⟩ | ⟨hv, he⟩⟩ <;>
    have e := he.symm.trans h
  · cases e
  · exact ⟨hc, .inl ⟨hl, hf, (Host.Outcome.next.inj e).symm⟩⟩
  · exact ⟨hc, .inr (.inl ⟨r, hv, (Host.Outcome.next.inj e).symm⟩)⟩
  · exact ⟨hc, .inr (.inr ⟨hv, (Host.Outcome.next.inj e).symm⟩)⟩

/-! ### When each operation goes on, and what it leaves -/

theorem exec_read_next {s t : State} {a : Address} : exec (.read a) s = .next t ↔
    s.constructed = true ∧ t = s.afterAccess (readAccess s.l1 s.l2 a) :=
  State.serve_next (k := fun c1 c2 => readAccess c1 c2 a)

theorem exec_write_next {s t : State} {a : Address} : exec (.write a) s = .next t ↔
    s.constructed = true ∧ t = s.afterAccess (writeAccess Config.multiMatch s.l1 s.l2 a) :=
  State.serve_next (k := fun c1 c2 => writeAccess Config.multiMatch c1 c2 a)

theorem exec_read_ok {s : State} (h : s.constructed = true) (a : Address) :
    exec (.read a) s = .next (s.afterAccess (readAccess s.l1 s.l2 a)) := exec_read_next.2 ⟨h, rfl⟩

theorem exec_write_ok {s : State} (h : s.constructed = true) (a : Address) :
    exec (.write a) s = .next (s.afterAccess (writeAccess Config.multiMatch s.l1 s.l2 a)) :=
  exec_write_next.2 ⟨h, rfl⟩

theorem exec_nop_next {s t : State} {l : LevelId} {a : Address} : exec (.nop l a) s = .next t ↔
    t = s.setReply l Reply.zero := by
  show Host.Outcome.next _ = _ ↔ _
  simp [eq_comm]

theorem exec_probeRd_next {s t : State} {l : LevelId} {a : Address} : exec (.probeRd l a) s = .next t ↔
    (s.level l).cfgOk = true ∧ t = s.setReply l (Reply.ofFlag ((s.level l).matchHit a)) :=
  State.onLevel_next (k := fun c => s.setReply l (Reply.ofFlag (c.probeRd a)))

theorem exec_probeWr_next {s t : State} {l : LevelId} {a : Address} : exec (.probeWr l a) s = .next t ↔
    (s.level l).cfgOk = true ∧ t = (s.setLevel l ((s.level l).probeWr Config.multiMatch a)).setReply l
      (Reply.ofFlag ((s.level l).matchHit a)) :=
  State.onLevel_next (k := fun c => (s.setLevel l (c.probeWr Config.multiMatch a)).setReply l (Reply.ofFlag (c.matchHit a)))

theorem exec_vdirty_next {s t : State} {l : LevelId} {a : Address} : exec (.vdirty l a) s = .next t ↔
    (s.level l).cfgOk = true ∧ t = s.setReply l (Reply.ofFlag ((s.level l).vdirty a)) :=
  State.onLevel_next (k := fun c => s.setReply l (Reply.ofFlag (c.vdirty a)))

theorem exec_fill_next {s t : State} {l : LevelId} {a : Address} : exec (.fill l a) s = .next t ↔
    (s.level l).cfgOk = true ∧ t = (s.setLevel l ((s.level l).fill a)).setReply l Reply.zero :=
  State.onLevel_next (k := fun c => (s.setLevel l (c.fill a)).setReply l Reply.zero)

theorem exec_vaddr_next {s t : State} {l : LevelId} {a : Address} : exec (.vaddr l a) s = .next t ↔
    (s.level l).cfgOk = true ∧ t = s.setReply l (Reply.ofVaddr ((s.level l).vaddr l a)) :=
  State.onLevel_next (k := fun c => s.setReply l (Reply.ofVaddr (c.vaddr l a)))

theorem exec_reset_next {s t : State} {l : LevelId} : exec (.reset l) s = .next t ↔
    (s.level l).cfgOk = true ∧ t = s.setLevel l (s.level l).clear :=
  State.onLevel_next (k := fun c => s.setLevel l c.clear)

theorem exec_decode_next {s t : State} {l : LevelId} {a : Address} : exec (.decode l a) s = .next t ↔
    (s.level l).cfgOk = true ∧ t = { s with decoded := (s.level l).fieldsOf a } :=
  State.onLevel_next (k := fun c => { s with decoded := c.fieldsOf a })

theorem exec_compose_next {s t : State} {l : LevelId} {x y : Nat} : exec (.compose l x y) s = .next t ↔
    (s.level l).cfgOk = true ∧ t = { s with composed := (s.level l).geom.composeOf x y } :=
  State.onLevel_next (k := fun c => { s with composed := c.geom.composeOf x y })

/-! ### Everything an operation can do to a level -/

/-- What holds of a level, and is kept by a FILL and a write probe of it, by RESET of it when the operation is that, and
holds of what CONFIGURE makes of it when the operation is that, holds of it after the operation. -/
theorem exec_level {i : Instr} {s t : State} (h : exec i s = .next t) (l : LevelId) (P : CacheLevel → Prop)
    (h0 : P (s.level l))
    (hfill : ∀ c a, c.cfgOk = true → P c → P (c.fill a))
    (hprobe : ∀ c a, c.cfgOk = true → P c → P (c.probeWr Config.multiMatch a))
    (hclear : i = .reset l → ∀ c, c.cfgOk = true → P c → P c.clear)
    (hconstruct : ∀ b w k, i = .configure l b w k → validate ⟨b, w, k⟩ = none → ∀ c, c.cfgOk = false → P c →
      P (c.construct ⟨b, w, k⟩))
    (habsent : ∀ l' b w k, i = .configure l' b w k → ∀ c, P c → P (CacheLevel.absent c.epoch)) :
    P (t.level l) := by
  cases i with
  | read a =>
    obtain ⟨hc, rfl⟩ := exec_read_next.1 h
    obtain ⟨h1, h2⟩ := s.constructed_iff.1 hc
    cases hm : s.l1.matchHit a
    · rw [readAccess_miss _ hm]
      cases l with
      | l1 => exact hfill _ _ h1 h0
      | l2 =>
        show P (l2AfterReadMiss s.l1 s.l2 a)
        unfold l2AfterReadMiss
        have hx : P (if s.l2.matchHit a then s.l2 else s.l2.fill a) := by
          split
          · exact h0
          · exact hfill _ _ h2 h0
        have hok : (if s.l2.matchHit a then s.l2 else s.l2.fill a).cfgOk = true := by split <;> exact h2
        simp only
        split
        · exact hfill _ _ hok hx
        · exact hx
    · rw [readAccess_hit _ hm]
      cases l <;> exact h0
  | write a =>
    obtain ⟨hc, rfl⟩ := exec_write_next.1 h
    obtain ⟨h1, h2⟩ := s.constructed_iff.1 hc
    cases hm : s.l1.matchHit a
    · rw [writeAccess_miss _ _ hm]
      cases l with
      | l1 => exact h0
      | l2 => exact hprobe _ _ h2 h0
    · rw [writeAccess_hit _ _ hm]
      cases l with
      | l1 => exact hprobe _ _ h1 h0
      | l2 => exact h0
  | nop l' a =>
    rw [exec_nop_next.1 h]
    simpa using h0
  | probeRd l' a =>
    obtain ⟨-, rfl⟩ := exec_probeRd_next.1 h
    simpa using h0
  | probeWr l' a =>
    obtain ⟨hc, rfl⟩ := exec_probeWr_next.1 h
    rw [State.setReply_level]
    by_cases hl : l = l'
    · subst hl; rw [State.setLevel_level]; exact hprobe _ _ hc h0
    · rw [State.setLevel_level_ne _ _ hl]; exact h0
  | vdirty l' a =>
    obtain ⟨-, rfl⟩ := exec_vdirty_next.1 h
    simpa using h0
  | fill l' a =>
    obtain ⟨hc, rfl⟩ := exec_fill_next.1 h
    rw [State.setReply_level]
    by_cases hl : l = l'
    · subst hl; rw [State.setLevel_level]; exact hfill _ _ hc h0
    · rw [State.setLevel_level_ne _ _ hl]; exact h0
  | vaddr l' a =>
    obtain ⟨-, rfl⟩ := exec_vaddr_next.1 h
    simpa using h0
  | configure l' b w k =>
    obtain ⟨hc, ⟨-, -, rfl⟩ | ⟨r, -, rfl⟩ | ⟨hv, rfl⟩⟩ := exec_configure_next h
    · exact h0
    · rw [State.raiseConfigError_level]
      exact habsent _ _ _ _ rfl _ h0
    · by_cases hl : l = l'
      · subst hl; rw [State.constructLevel_level]; exact hconstruct _ _ _ rfl hv _ hc h0
      · rw [State.constructLevel_level_ne _ _ hl]; exact h0
  | reset l' =>
    obtain ⟨hc, rfl⟩ := exec_reset_next.1 h
    by_cases hl : l = l'
    · subst hl; rw [State.setLevel_level]; exact hclear rfl _ hc h0
    · rw [State.setLevel_level_ne _ _ hl]; exact h0
  | decode l' a =>
    obtain ⟨-, rfl⟩ := exec_decode_next.1 h
    cases l <;> exact h0
  | compose l' x y =>
    obtain ⟨-, rfl⟩ := exec_compose_next.1 h
    cases l <;> exact h0

/-- What an operation leaves in the fields beside the levels: the results are those before, those after construction or a
pair of R96; an error is recorded by CONFIGURE alone, with both levels gone; and what is presented stays as it is. -/
theorem exec_outputs {i : Instr} {s t : State} (h : exec i s = .next t) :
    ((t.l1State = s.l1State ∧ t.l2State = s.l2State) ∨ (t.l1State = .noAction ∧ t.l2State = .noAction) ∨
      legalPair t.l1State t.l2State = true) ∧
    (t.cfgError = s.cfgError ∨ t.cfgError = none ∨
      (t.l1 = CacheLevel.absent s.l1.epoch ∧ t.l2 = CacheLevel.absent s.l2.epoch)) ∧
    t.inputs = s.inputs ∧ t.bench = s.bench := by
  cases i with
  | read a =>
    obtain ⟨-, rfl⟩ := exec_read_next.1 h
    exact ⟨.inr (.inr (readAccess_pair _ _ _)), .inl rfl, rfl, rfl⟩
  | write a =>
    obtain ⟨-, rfl⟩ := exec_write_next.1 h
    exact ⟨.inr (.inr (writeAccess_pair _ _ _ _)), .inl rfl, rfl, rfl⟩
  | nop l' a => rw [exec_nop_next.1 h]; simp
  | probeRd l' a => obtain ⟨-, rfl⟩ := exec_probeRd_next.1 h; simp
  | probeWr l' a => obtain ⟨-, rfl⟩ := exec_probeWr_next.1 h; simp
  | vdirty l' a => obtain ⟨-, rfl⟩ := exec_vdirty_next.1 h; simp
  | fill l' a => obtain ⟨-, rfl⟩ := exec_fill_next.1 h; simp
  | vaddr l' a => obtain ⟨-, rfl⟩ := exec_vaddr_next.1 h; simp
  | configure l' b w k =>
    obtain ⟨-, ⟨-, -, rfl⟩ | ⟨r, -, rfl⟩ | ⟨-, rfl⟩⟩ := exec_configure_next h
    · simp
    · exact ⟨.inl ⟨rfl, rfl⟩, .inr (.inr ⟨rfl, rfl⟩), rfl, rfl⟩
    · simp
  | reset l' => obtain ⟨-, rfl⟩ := exec_reset_next.1 h; simp
  | decode l' a => obtain ⟨-, rfl⟩ := exec_decode_next.1 h; simp
  | compose l' x y => obtain ⟨-, rfl⟩ := exec_compose_next.1 h; simp

end Sys2Proof.Machine
end

