-- ==== Sys2Proof/Laws/Invariant.lean ====
section
/-! SUPPORT. What the invariant of a level gives (10_state.md R25), that FILL and PROBE_WR keep it, and which line a
write probe dirties (41_cache_level.md R84). -/

namespace Sys2Proof.Machine

open Sys2Proof

/-- Two addresses agree in tag and index exactly when their block numbers agree (R73). -/
theorem Geometry.Sound.same_block_iff {g : Geometry} {b : Nat} (hg : g.Sound b) {x y : Address} :
  ((g.fieldsOf x).tag = (g.fieldsOf y).tag ∧ (g.fieldsOf x).index = (g.fieldsOf y).index) ↔
      x.toNat / b = y.toNat / b := by
  have hx := hg.block_number x
  have hy := hg.block_number y
  constructor
  · rintro ⟨h1, h2⟩; rw [← hx, ← hy, h1, h2]
  · intro h
    rw [← hx, ← hy] at h
    have h1 := fieldsOf_index_lt g x
    have h2 := fieldsOf_index_lt g y
    generalize (g.fieldsOf x).tag = t1 at *; generalize (g.fieldsOf y).tag = t2 at *
    generalize (g.fieldsOf x).index = i1 at *; generalize (g.fieldsOf y).index = i2 at *
    have e1 : (t1 * 2^g.indexBits + i1) / 2^g.indexBits = t1 := by
      rw [Nat.mul_comm, Nat.mul_add_div (two_pow_pos _), Nat.div_eq_of_lt h1, Nat.add_zero]
    have e2 : (t2 * 2^g.indexBits + i2) / 2^g.indexBits = t2 := by
      rw [Nat.mul_comm, Nat.mul_add_div (two_pow_pos _), Nat.div_eq_of_lt h2, Nat.add_zero]
    have : t1 = t2 := by rw [← e1, ← e2, h]
    subst this
    exact ⟨rfl, by omega⟩

/-- A constructed level has a sound geometry (R67). -/
theorem CacheLevel.consistent.sound {c : CacheLevel} (h : c.consistent) (hok : c.cfgOk = true) :
    c.geom.Sound c.cfg.blockSizeBytes := by
  rcases h with ⟨-, hv, hg⟩ | ha
  · rw [hg]; exact Geometry.sound_of_valid hv
  · rw [ha] at hok; cases hok

/-- In canonical form every line's tag has `tagBits` bits, a never-filled line's too. -/
theorem CacheLevel.tag_lt {c : CacheLevel} (hwf : c.arrayWf = true) (l : LevelId) (k w : Nat) :
    (c.lineAt l k w).tag < 2 ^ c.geom.tagBits := by
  unfold CacheLevel.lineAt
  cases h : lookup w (c.setAt k).lines with
  | none => exact Nat.mod_lt _ (two_pow_pos _)
  | some ln => exact (CacheLevel.listed_of_arrayWf hwf (mem_of_lookup h)).2.2

/-- A level that no way of is hit misses (R76). -/
theorem CacheLevel.matchHit_eq_false {c : CacheLevel} (hwf : c.arrayWf = true) {l : LevelId} {a : Address} (h : ¬ c.isHit l a) :
    c.matchHit a = false := by
  rw [← Bool.not_eq_true, CacheLevel.matchHit_iff hwf l a]; exact h

/-- Reading after dirtying the first listed line that `p` holds of. -/
theorem lookup_dirtyFirst_lowest {p : Nat × Line → Bool} {m : List (Nat × Line)} (hr : keysRising m = true)
    {w : Nat} {ln : Line}
    (hm : (w, ln) ∈ m) (hp : p (w, ln) = true) (hlow : ∀ e ∈ m, e.1 < w → p e = false) (k : Nat) :
    lookup k (dirtyFirst p m) = if k = w then some { ln with dirty := true } else lookup k m := by
  induction m with
  | nil => cases hm
  | cons e t ih =>
    obtain ⟨hall, ht⟩ := (keysRising_cons e t).1 hr
    simp only [dirtyFirst]
    rcases List.mem_cons.1 hm with rfl | hm
    · rw [if_pos hp]
      simp only [lookup_cons]
      by_cases hk : k = w
      · simp [hk]
      · simp [hk, Ne.symm hk]
    · have h1 := hall _ hm
      rw [hlow e (List.mem_cons.2 (.inl rfl)) h1]
      simp only [Bool.false_eq_true, if_false, lookup_cons]
      rw [ih ht hm fun x hx => hlow x (List.mem_cons.2 (.inr hx))]
      by_cases hk : e.1 = k
      · have : k ≠ w := by simp only at h1; omega
        simp [hk, this]
      · simp [hk]

/-- The lines after a write probe that hits (R79, R84). -/
theorem CacheLevel.lineAt_probeWr_lowest {c : CacheLevel} (hwf : c.arrayWf = true) {l : LevelId} {a : Address}
    {w : Nat} (hm : c.matchesAt l a w) (hlow : ∀ w', w' < w → ¬ c.matchesAt l a w') (k v : Nat) :
    (c.probeWr .lowest a).lineAt l k v =
      if k = c.selectSet a ∧ v = w then { c.lineAt l k v with dirty := true } else c.lineAt l k v := by
  have hit : c.matchHit a = true := (CacheLevel.matchHit_iff hwf l a).2 ⟨w, hm⟩
  obtain ⟨ln, hmem, hp⟩ := (CacheLevel.matchesAt_iff hwf l a w).1 hm
  have hr := CacheLevel.keysRising_setAt hwf (c.selectSet a)
  unfold CacheLevel.probeWr
  rw [if_pos hit]
  simp only [c.lineAt_putSet, dirtyMatching]
  by_cases hk : k = c.selectSet a
  · subst hk
    simp only [if_true, true_and]
    rw [lookup_dirtyFirst_lowest hr hmem hp]
    · by_cases hv : v = w
      · subst hv
        simp [CacheLevel.lineAt, (lookup_eq_some hr).2 hmem]
      · simp [hv, CacheLevel.lineAt]
    · intro e he hlt
      by_contra hc
      exact hlow e.1 hlt ((CacheLevel.matchesAt_iff hwf l a e.1).2 ⟨e.2, he, by simpa using hc⟩)
  · simp [hk]

/-- A write probe changes no tag and no valid bit, and clears no dirty bit (R79). -/
theorem CacheLevel.probeWr_line (mm) (c : CacheLevel) (l a k w) : 
      ((c.probeWr mm a).lineAt l k w).tag = (c.lineAt l k w).tag ∧
      ((c.probeWr mm a).lineAt l k w).valid = (c.lineAt l k w).valid ∧
      ((c.lineAt l k w).dirty = true → ((c.probeWr mm a).lineAt l k w).dirty = true) := by
  rcases c.lineAt_probeWr mm l a k w with h | ⟨h, -⟩ <;> rw [h] <;> simp

/-- Listing a value for a listed key keeps the keys. -/
theorem insertKey_keys_old {α} (k : Nat) (v : α) (m : List (Nat × α)) (hr : keysRising m = true)
    (h : k ∈ m.map Prod.fst) :
    (insertKey k v m).map Prod.fst = m.map Prod.fst := by
  induction m with
  | nil => cases h
  | cons e t ih =>
    obtain ⟨hall, ht⟩ := (keysRising_cons e t).1 hr
    simp only [insertKey]
    simp only [List.map_cons, List.mem_cons] at h
    rcases h with h | h
    · subst h; simp
    · obtain ⟨x, hx, rfl⟩ := List.mem_map.1 h
      have := hall x hx
      rw [if_neg (by omega), if_neg (by omega)]
      simp [ih ht h]

/-- Listing a value for a key above all others puts it last. -/
theorem insertKey_end {α} (k : Nat) (v : α) (m : List (Nat × α)) (h : ∀ e ∈ m, e.1 < k) :
    insertKey k v m = m ++ [(k, v)] := by
  induction m with
  | nil => rfl
  | cons e t ih =>
    have := h e (List.mem_cons.2 (.inl rfl))
    simp only [insertKey]
    rw [if_neg (by omega), if_neg (by omega), ih fun x hx => h x (List.mem_cons.2 (.inr hx))]
    rfl

theorem CacheSet.fresh_fillsInOrder (g : Geometry) : CacheSet.fillsInOrder g CacheSet.fresh := ⟨rfl, fun _ => rfl⟩

theorem CacheLevel.fillsInOrder_setAt {c : CacheLevel} (h : ∀ e ∈ c.sets, CacheSet.fillsInOrder c.geom e.2)
    (k : Nat) : CacheSet.fillsInOrder c.geom (c.setAt k) := by
  unfold CacheLevel.setAt
  cases hl : lookup k c.sets with
  | none => exact CacheSet.fresh_fillsInOrder _
  | some x => exact h _ (mem_of_lookup hl)

theorem CacheLevel.fillsInOrder_putSet {c : CacheLevel} {k x}
    (h : ∀ e ∈ c.sets, CacheSet.fillsInOrder c.geom e.2) (hx : CacheSet.fillsInOrder c.geom x) :
    ∀ e ∈ (c.putSet k x).sets, CacheSet.fillsInOrder c.geom e.2 := by
  intro e he
  unfold CacheLevel.putSet at he
  split at he
  · exact h e (List.mem_of_mem_filter he)
  · rcases mem_insertKey he with rfl | he
    · exact hx
    · exact h e he

/-- The set a FILL writes is filled in order when it was before (R25 item 3). -/
theorem CacheLevel.fillsInOrder_filledSet {c : CacheLevel} (hwf : c.arrayWf = true) {b : Nat} (hg : c.geom.Sound b)
    (h : ∀ e ∈ c.sets, CacheSet.fillsInOrder c.geom e.2) (a : Address) :
    CacheSet.fillsInOrder c.geom (c.filledSet a) := by
  obtain ⟨hk, hc⟩ := CacheLevel.fillsInOrder_setAt h (c.selectSet a)
  obtain ⟨hr, hall, hcur⟩ := (CacheSet.wf_iff _ _).1 (CacheLevel.wf_setAt hwf hg.numWays_pos (c.selectSet a))
  have hvic : c.selectVictim a = (c.setAt (c.selectSet a)).cur := rfl
  rw [← hvic] at hc hcur
  unfold CacheLevel.filledSet
  generalize (c.setAt (c.selectSet a)).lines = m at *
  generalize c.selectVictim a = v at *
  have hmem : ∀ e ∈ m, e.1 < m.length := fun e he => by
    have : e.1 ∈ m.map Prod.fst := List.mem_map_of_mem he
    rw [hk] at this; exact List.mem_range.1 this
  have hle : m.length ≤ c.geom.numWays := by
    by_contra hlt
    have : c.geom.numWays ∈ m.map Prod.fst := by rw [hk]; exact List.mem_range.2 (by omega)
    obtain ⟨e, he, h'⟩ := List.mem_map.1 this
    have := (hall e he).1; omega
  by_cases hf : m.length < c.geom.numWays
  · have := hc hf
    subst this
    refine ⟨?_, fun hlt => ?_⟩
    · simp only
      rw [insertKey_end _ _ _ hmem]
      simp [hk, List.range_succ]
    · simp only at hlt ⊢
      rw [insertKey_end _ _ _ hmem] at hlt ⊢
      simp only [List.length_append, List.length_singleton] at hlt ⊢
      exact Nat.mod_eq_of_lt hlt
  · have hin : v ∈ m.map Prod.fst := by rw [hk]; exact List.mem_range.2 (by omega)
    have e := insertKey_keys_old v ({ tag := (c.fieldsOf a).tag, valid := true, dirty := false } : Line) m hr hin
    have el : (insertKey v ({ tag := (c.fieldsOf a).tag, valid := true, dirty := false } : Line) m).length =
        m.length := by
      simpa using congrArg List.length e
    refine ⟨?_, fun hlt => ?_⟩
    · simp only; rw [e, el, hk]
    · simp only at hlt; rw [el] at hlt; exact absurd hlt hf

/-- FILL keeps the invariant of a level. -/
theorem CacheLevel.Inv.fill {c : CacheLevel} (h : c.Inv) (hok : c.cfgOk = true) (a : Address) : (c.fill a).Inv := by
  have hg := CacheLevel.consistent.sound h.consistent hok
  refine ⟨?_, CacheLevel.arrayWf_fill h.array hg a, ?_⟩
  · rcases h.consistent with hc | hc
    · exact .inl hc
    · rw [hc] at hok; cases hok
  · exact CacheLevel.fillsInOrder_putSet h.inOrder (CacheLevel.fillsInOrder_filledSet h.array hg h.inOrder a)

/-- PROBE_WR keeps the invariant of a level. -/
theorem CacheLevel.Inv.probeWr {c : CacheLevel} (h : c.Inv) (hok : c.cfgOk = true) (mm : MultiMatch)
    (a : Address) : (c.probeWr mm a).Inv := by
  have hg := CacheLevel.consistent.sound h.consistent hok
  refine ⟨?_, CacheLevel.arrayWf_probeWr mm h.array hg a, ?_⟩
  · rcases h.consistent with hc | hc
    · left; simpa using hc
    · rw [hc] at hok; cases hok
  · rw [CacheLevel.probeWr_geom]
    unfold CacheLevel.probeWr
    split
    · refine CacheLevel.fillsInOrder_putSet h.inOrder ?_
      obtain ⟨hk, hc⟩ := CacheLevel.fillsInOrder_setAt h.inOrder (c.selectSet a)
      have hl : ∀ p, (dirtyMatching mm p (c.setAt (c.selectSet a)).lines).length =
          (c.setAt (c.selectSet a)).lines.length := fun p => by
        simpa using congrArg List.length (dirtyMatching_keys mm p (c.setAt (c.selectSet a)).lines)
      refine ⟨?_, ?_⟩
      · simp only; rw [dirtyMatching_keys, hl, hk]
      · simp only; rw [hl]; exact hc
    · exact h.inOrder

theorem State.Inv.level {s : State} (h : s.Inv) (l) : (s.level l).Inv := by cases l; exacts [h.l1, h.l2]

/-- Under the invariant the valid ways are those below the number of listed ones. -/
theorem CacheLevel.Inv.valid_iff {c : CacheLevel} (h : c.Inv) (l : LevelId) (k w : Nat) :
    (c.lineAt l k w).valid = true ↔ w < (c.setAt k).lines.length := by
  obtain ⟨hk, -⟩ := CacheLevel.fillsInOrder_setAt h.inOrder k
  have e : (w < (c.setAt k).lines.length) ↔ w ∈ (c.setAt k).lines.map Prod.fst := by rw [hk, List.mem_range]
  rw [e]
  constructor
  · intro hv
    exact List.mem_map.2 ⟨_, mem_of_lookup (CacheLevel.lineAt_listed (.inl hv)), rfl⟩
  · intro hm
    obtain ⟨⟨w', ln⟩, hx, rfl⟩ := List.mem_map.1 hm
    have : c.lineAt l k w' = ln := by
      simp [CacheLevel.lineAt, (lookup_eq_some (CacheLevel.keysRising_setAt h.array k)).2 hx]
    simp only
    rw [this]
    exact (CacheLevel.listed_of_arrayWf h.array hx).2.1

/-- The invariant holds the canonical form of the memory. -/
theorem State.Inv.memory {s : State} (h : s.Inv) : Memory.wf s = true := by
  simp [Memory.wf, h.l1.array, h.l2.array]

/-- The memory of the state after reset is in canonical form. -/
theorem Memory.wf_reset : Memory.wf State.reset = true := by decide

end Sys2Proof.Machine
end

