-- ==== Sys2Proof/Laws/PerInstr.lean ====
section
/-! SUPPORT. Facts about every instruction, one lemma per constructor. -/

namespace Sys2Proof.Laws.EncodedFits

open Sys2Proof

/-- The word of a well-formed instruction sets no bit above the width of its port (R47). -/
def Statement (i : Instr) : Prop := i.wellFormed = true → (encode i).word.toNat < 2 ^ (encode i).port.width

/-- A word with a small field above a 32-bit one. -/
theorem small_word {hi lo n : Nat} (hhi : hi < 2 ^ n) (hn : n ≤ 64) (hlo : lo < 2 ^ 32) :
    (word96 hi lo).toNat < 2 ^ (n + 32) := by
  have h64 : hi < 2 ^ 64 := Nat.lt_of_lt_of_le hhi (Nat.pow_le_pow_right (by decide) hn)
  rw [word96_toNat h64 hlo, Nat.pow_add]
  have : (hi + 1) * 2 ^ 32 ≤ 2 ^ n * 2 ^ 32 := Nat.mul_le_mul_right _ hhi
  omega

theorem read (a : Address) : Statement (.read a) := fun _ => small_word (n := 1) (by decide) (by decide) a.isLt
theorem write (a : Address) : Statement (.write a) := fun _ => small_word (n := 1) (by decide) (by decide) a.isLt
theorem nop (l : LevelId) (a : Address) : Statement (.nop l a) :=
  fun _ => small_word (n := 3) (by decide) (by decide) a.isLt
theorem probeRd (l : LevelId) (a : Address) : Statement (.probeRd l a) :=
  fun _ => small_word (n := 3) (by decide) (by decide) a.isLt
theorem probeWr (l : LevelId) (a : Address) : Statement (.probeWr l a) :=
  fun _ => small_word (n := 3) (by decide) (by decide) a.isLt
theorem vdirty (l : LevelId) (a : Address) : Statement (.vdirty l a) :=
  fun _ => small_word (n := 3) (by decide) (by decide) a.isLt
theorem fill (l : LevelId) (a : Address) : Statement (.fill l a) :=
  fun _ => small_word (n := 3) (by decide) (by decide) a.isLt
theorem vaddr (l : LevelId) (a : Address) : Statement (.vaddr l a) :=
  fun _ => small_word (n := 3) (by decide) (by decide) a.isLt
theorem configure (l : LevelId) (blockSizeBytes ways capacityKB : Nat) :
    Statement (.configure l blockSizeBytes ways capacityKB) := by
  intro h
  simp only [Instr.wellFormed, Bool.and_eq_true, fitsField_iff, Config.cfgWidth] at h
  exact small_word (n := 64) (by omega) (by decide) h.2
theorem reset (l : LevelId) : Statement (.reset l) := fun _ => by cases l <;> decide
theorem decode (l : LevelId) (a : Address) : Statement (.decode l a) :=
  fun _ => small_word (n := 0) (by decide) (by decide) a.isLt
theorem compose (l : LevelId) (tag index : Nat) : Statement (.compose l tag index) := by
  intro h
  simp only [Instr.wellFormed, Bool.and_eq_true, fitsField_iff] at h
  exact small_word (n := 32) h.1 (by decide) h.2

end Sys2Proof.Laws.EncodedFits
end

