-- ==== Sys2Proof/Laws/Step.lean ====
section
/-! SUPPORT. What a step can do, said once. -/

namespace Sys2Proof.Machine

open Sys2Proof

/-! ### A word at a port, and the environment's interactions -/

/-- A word that is an operation's runs it. -/
theorem runWord_of_decode {pw : PortWord} {i : Instr} (h : decode pw = .instr i) (s : State) :
    runWord pw s = exec i s := by simp only [runWord, h]

theorem runWord_next {pw : PortWord} {s t : State} (h : runWord pw s = .next t) :
    ∃ i, decode pw = .instr i ∧ exec i s = .next t := by
  unfold runWord at h
  cases hd : decode pw with
  | instr i => rw [hd] at h; exact ⟨i, rfl, h⟩
  | reject e => rw [hd] at h; cases h

theorem andThen_eq_next {o : Host.Outcome State Fault Refusal} {k : State → Host.Outcome State Fault Refusal} {t : State}
    (h : andThen o k = .next t) : ∃ u, o = .next u ∧ k u = .next t := by
  cases o with
  | next u => exact ⟨u, rfl, h⟩
  | fault f => cases h
  | refused r => cases h

/-- A configuration word asks for CONFIGURE with its three fields (R54). -/
theorem decode_cfg (l : LevelId) (w : BitVec 96) : decode ⟨.cfg l, w⟩ =
    .instr (.configure l (cfgOfWord w).blockSizeBytes (cfgOfWord w).ways (cfgOfWord w).capacityKB) :=
  if_neg (Nat.not_le.2 w.isLt)

/-- A request word asks for an access (R48). -/
theorem decode_req (w : BitVec 33) : ∃ i, decode ⟨.req, w.setWidth 96⟩ = .instr i ∧ i.isAccess = true := by
  have hn : ¬ 2 ^ Port.width .req ≤ (w.setWidth 96).toNat := by
    have := w.isLt
    simp only [Port.width, BitVec.toNat_setWidth]
    omega
  have he : decode ⟨.req, w.setWidth 96⟩ =
      decodeReq (bitField (w.setWidth 96).toNat 32 1) (addrField (w.setWidth 96).toNat) := if_neg hn
  rw [he]
  cases bitField (w.setWidth 96).toNat 32 1 with
  | zero => exact ⟨_, rfl, rfl⟩
  | succ n => exact ⟨_, rfl, rfl⟩

/-- The construction is the two CONFIGURE its words ask for, L1's then L2's (R117). -/
theorem State.construct_eq {w1 w2 : BitVec 96} {i1 i2 : Instr} (h1 : decode ⟨.cfg .l1, w1⟩ = .instr i1)
    (h2 : decode ⟨.cfg .l2, w2⟩ = .instr i2) (s : State) : s.construct w1 w2 = andThen (exec i1 s) (exec i2) := by
  rw [State.construct, runWord_of_decode h1, funext (runWord_of_decode h2)]

/-- What the construction of a block that does not exist answers (R102, R109, R117). -/
theorem State.construct_unbuilt {s : State} (h1 : s.l1.cfgOk = false) (h2 : s.l2.cfgOk = false) (w1 w2 : BitVec 96) :
    s.construct w1 w2 = .next (match validate (cfgOfWord w1), validate (cfgOfWord w2) with
      | some r, _ => s.raiseConfigError .l1 r
      | none, some r => (s.constructLevel .l1 (cfgOfWord w1)).raiseConfigError .l2 r
      | none, none => (s.constructLevel .l1 (cfgOfWord w1)).constructLevel .l2 (cfgOfWord w2)) := by
  rw [State.construct_eq (decode_cfg _ _) (decode_cfg _ _), exec_configure,
    execConfigure_live (l := .l1) _ _ _ h1 fun h => by cases h]
  cases hv1 : validate (cfgOfWord w1) with
  | some r =>
    simp only [andThen_next]
    exact execConfigure_inert (s := s.raiseConfigError .l1 r) (cfgOfWord w2).blockSizeBytes (cfgOfWord w2).ways
      (cfgOfWord w2).capacityKB rfl rfl
  | none =>
    simp only [andThen_next]
    refine (execConfigure_live (l := .l2) (s := s.constructLevel .l1 (cfgOfWord w1)) _ _ _ h2 fun _ => rfl).trans ?_
    cases validate (cfgOfWord w2) <;> rfl

/-- A block that is constructed is not constructed again (R116, R120, U10). -/
theorem State.construct_refused {s : State} (h : s.l1.cfgOk = true) (w1 w2 : BitVec 96) :
    s.construct w1 w2 = .refused (.alreadyConstructed .l1) := by
  rw [State.construct_eq (decode_cfg _ _) (decode_cfg _ _), exec_configure,
    execConfigure_refused (l := .l1) _ _ _ h]
  rfl

/-- What an interaction that goes on ran: one operation or, for a construction, two. -/
theorem interact_next {i : Interaction} {s t : State} (h : interact i s = .next t) :
    (∃ j, exec j s = .next t) ∨ ∃ j k u, exec j s = .next u ∧ exec k u = .next t := by
  cases i with
  | access w => exact .inl ((runWord_next h).imp fun _ hj => hj.2)
  | construct w1 w2 =>
    obtain ⟨u, hu, ht⟩ := andThen_eq_next h
    obtain ⟨j, -, hj⟩ := runWord_next hu
    obtain ⟨k, -, hk⟩ := runWord_next ht
    exact .inr ⟨j, k, u, hj, hk⟩

/-! ### Steps -/

theorem step_of_bench {s : State} {pw : PortWord} {rest : List PortWord} (h : s.bench = pw :: rest) :
    step s = runWord pw { s with bench := rest } := by simp only [step, h]

theorem step_of_input {s : State} {i : Interaction} {rest : List Interaction} (hb : s.bench = [])
    (h : s.inputs = i :: rest) : step s = interact i { s with inputs := rest } := by simp only [step, hb, h]

theorem step_of_empty {s : State} (hb : s.bench = []) (h : s.inputs = []) : step s = .next s := by
  simp only [step, hb, h]

/-- A step that goes on had nothing to take, or ran the operation of the bench's word, or one interaction. -/
theorem step_next {s t : State} (h : step s = .next t) :
    (s.bench = [] ∧ s.inputs = [] ∧ t = s) ∨
    (∃ pw rest i, s.bench = pw :: rest ∧ decode pw = .instr i ∧ exec i { s with bench := rest } = .next t) ∨
    (∃ i rest, s.bench = [] ∧ s.inputs = i :: rest ∧ interact i { s with inputs := rest } = .next t) := by
  obtain hb | ⟨pw, rest, hb⟩ : s.bench = [] ∨ ∃ pw rest, s.bench = pw :: rest := by cases s.bench <;> simp
  · obtain hp | ⟨i, rest, hp⟩ : s.inputs = [] ∨ ∃ i rest, s.inputs = i :: rest := by cases s.inputs <;> simp
    · rw [step_of_empty hb hp] at h
      exact .inl ⟨hb, hp, (Host.Outcome.next.inj h).symm⟩
    · rw [step_of_input hb hp] at h
      exact .inr (.inr ⟨i, rest, hb, hp, h⟩)
  · rw [step_of_bench hb] at h
    obtain ⟨i, hd, hi⟩ := runWord_next h
    exact .inr (.inl ⟨pw, rest, i, hb, hd, hi⟩)

/-! ### The word of a row of the table -/

/-- A word that is an operation's fits its port. -/
theorem word_lt_of_decode {pw : PortWord} {i : Instr} (h : decode pw = .instr i) : pw.word.toNat < 2 ^ pw.port.width := by
  by_contra hn
  simp [decode, Nat.not_lt.1 hn] at h

/-- The step after placing a row's word runs that word's operation: CONFIGURE on a block not constructed yet, a request
with no test bench at work (assumption 7). -/
theorem step_withFetchWord {s : State} {nbits w : Nat} {pw : PortWord} {i : Instr} (h : tableWord nbits w = some pw)
    (hd : decode pw = .instr i) : step (s.withFetchWord nbits w) = exec i (match pw.port with
      | .req => { s with bench := [] }
      | .cfg _ => s.unbuilt
      | .uop _ | .rst _ | .dec _ | .cmp _ => s) := by
  have hw := word_lt_of_decode hd
  obtain ⟨p, v⟩ := pw
  cases p with
  | req =>
    have e : (v.setWidth 33).setWidth 96 = v := by
      apply BitVec.eq_of_toNat_eq
      simp only [Port.width] at hw
      rw [BitVec.toNat_setWidth, BitVec.toNat_setWidth]
      omega
    have he : s.withFetchWord nbits w = { s with bench := [] }.present (.access (v.setWidth 33)) := by
      simp only [State.withFetchWord, h]
    rw [he, step_of_input rfl rfl, ← runWord_of_decode hd]
    show State.access _ _ = _
    rw [State.access, e]
    rfl
  | cfg l =>
    have he : s.withFetchWord nbits w = s.unbuilt.drive ⟨.cfg l, v⟩ := by simp only [State.withFetchWord, h]
    rw [he, step_of_bench rfl]
    exact runWord_of_decode hd _
  | uop l =>
    have he : s.withFetchWord nbits w = s.drive ⟨.uop l, v⟩ := by simp only [State.withFetchWord, h]
    rw [he, step_of_bench rfl]
    exact runWord_of_decode hd _
  | rst l =>
    have he : s.withFetchWord nbits w = s.drive ⟨.rst l, v⟩ := by simp only [State.withFetchWord, h]
    rw [he, step_of_bench rfl]
    exact runWord_of_decode hd _
  | dec l =>
    have he : s.withFetchWord nbits w = s.drive ⟨.dec l, v⟩ := by simp only [State.withFetchWord, h]
    rw [he, step_of_bench rfl]
    exact runWord_of_decode hd _
  | cmp l =>
    have he : s.withFetchWord nbits w = s.drive ⟨.cmp l, v⟩ := by simp only [State.withFetchWord, h]
    rw [he, step_of_bench rfl]
    exact runWord_of_decode hd _

/-! ### Runs -/

@[simp] theorem core_run_zero (s : State) : Sys2Proof.core.run 0 s = .next s := rfl

theorem run_succ_of_step {M : Host.Core} {s s' : M.State} (n : Nat) (h : M.step s = .next s') :
    M.run (n + 1) s = M.run n s' := by
  simp only [Host.Core.run, h]

/-- A run goes on from the state its first step answers. -/
theorem core_run_succ {s s' : State} (n : Nat) (h : step s = .next s') :
    Sys2Proof.core.run (n + 1) s = Sys2Proof.core.run n s' :=
  run_succ_of_step (M := Sys2Proof.core) n h

end Sys2Proof.Machine
end

