-- ==== Sys2Proof/Tests/Slice0.lean ====
section
/-! SUPPORT. The model's own tests: words written out from the encodings of 30_encoding.md, vectors of
95_test_vectors.md one step at a time, and for every statement with hypotheses a state and operands that meet them. -/

namespace Sys2Proof.Tests

open Sys2Proof Sys2Proof.Machine

/-! ### Helpers -/

/-- The next state, if there is one. -/
def nextOf (o : Host.Outcome State Fault Refusal) : Option State :=
  match o with
  | .next s => some s
  | .fault _ => none
  | .refused _ => none

/-- The reason of a refusal. -/
def refusalOf (o : Host.Outcome State Fault Refusal) : Option Refusal :=
  match o with
  | .next _ => none
  | .fault _ => none
  | .refused r => some r

/-- A field of the next state. -/
def see {α : Type} (f : State → α) (o : Host.Outcome State Fault Refusal) : Option α := (nextOf o).map f

/-- The reset state with these sets listed: L1 `(32, 1, 8)` with `DM 5/8/19` and L2 `(32, 4, 64)` with `SA 5/9/18`, the
geometries T1 and T2. -/
def st (sets1 sets2 : List (Nat × CacheSet)) : State :=
  { State.reset with l1 := { State.reset.l1 with sets := sets1 }, l2 := { State.reset.l2 with sets := sets2 } }

/-- The reset state with an empty L1 of another configuration. -/
def withL1 (c : CfgIn) (sets : List (Nat × CacheSet)) : State :=
  { State.reset with l1 := { cfg := c, geom := deriveGeometry c, cfgOk := true, sets := sets, epoch := 0 } }

/-- A valid line. -/
def ln (tag : Nat) (dirty : Bool) : Line := { tag := tag, valid := true, dirty := dirty }

/-- The state after ConfigError at L1. -/
def failed : State := State.reset.raiseConfigError .l1 .capNotPow2

/-- The configuration words of T1, `(32, 1, 8)`, and T2, `(32, 4, 64)`. -/
def cfgT1 : BitVec 96 := 0x000000200000000100000008
def cfgT2 : BitVec 96 := 0x000000200000000400000040

/-- Program P2 of 95_test_vectors.md after access 2: block 0 in both levels, dirty in L1. -/
def p2 : State := st [(0, ⟨[(0, ln 0 true)], 0⟩)] [(0, ⟨[(0, ln 0 false)], 1⟩)]

/-- Program P4 after access 6: the L1 victim of set 128 is dirty and its block resident in L2. -/
def p4 : State :=
  st [(128, ⟨[(0, ln 0 true)], 0⟩)] [(128, ⟨[(0, ln 0 false)], 1⟩), (384, ⟨[(0, ln 0 true)], 1⟩)]

/-! ### Well-formedness: an ill-formed term for each check -/

theorem test_wf_block : Instr.wellFormed (.configure .l1 (2 ^ 32) 1 8) = false := by decide
theorem test_wf_ways : Instr.wellFormed (.configure .l1 32 (2 ^ 32) 8) = false := by decide
theorem test_wf_capacity : Instr.wellFormed (.configure .l1 32 1 (2 ^ 32)) = false := by decide
theorem test_wf_tag : Instr.wellFormed (.compose .l2 (2 ^ 32) 0) = false := by decide
theorem test_wf_index : Instr.wellFormed (.compose .l2 0 (2 ^ 32)) = false := by decide

/-! ### Decoding: each constructor's word, from the tables of R48, R54, R55 -/

/-- P5 access 3 (bit 32 = 0). -/
theorem test_decode_read : decode ⟨.req, 0b000010010001101000101101001111000#96⟩ = .instr (.read 0x12345A78) := by decide
/-- P5 access 5 (bit 32 = 1). -/
theorem test_decode_write : decode ⟨.req, 0x1FFFFFFFF⟩ = .instr (.write 0xFFFFFFFF) := by decide
theorem test_decode_nop : decode ⟨.uop .l1, 0b00000000000000000000000000000000001#96⟩ = .instr (.nop .l1 1) := by decide
theorem test_decode_probeRd : decode ⟨.uop .l2, 0b00110000000000000000000000000000001#96⟩ =
    .instr (.probeRd .l2 0x80000001) := by decide
theorem test_decode_probeWr : decode ⟨.uop .l1, 0b01000000000000000000000000000000100#96⟩ =
    .instr (.probeWr .l1 4) := by decide
theorem test_decode_vdirty : decode ⟨.uop .l2, 0b01100000000000000000000000000001000#96⟩ =
    .instr (.vdirty .l2 8) := by decide
theorem test_decode_fill : decode ⟨.uop .l1, 0b10000000000000000000000000000010000#96⟩ =
    .instr (.fill .l1 16) := by decide
theorem test_decode_vaddr : decode ⟨.uop .l2, 0b10100000000000000000000000000100000#96⟩ =
    .instr (.vaddr .l2 32) := by decide
/-- T8: `(32, 1, 4194304)`. -/
theorem test_decode_configure : decode ⟨.cfg .l1, 0x000000200000000100400000⟩ =
    .instr (.configure .l1 32 1 4194304) := by decide
/-- The three ports of the model's own (assumption 6). -/
theorem test_decode_own_ports : decode ⟨.rst .l2, 0⟩ = .instr (.reset .l2) ∧
    decode ⟨.dec .l1, 0xDEADBEEF⟩ = .instr (.decode .l1 0xDEADBEEF) ∧
    decode ⟨.cmp .l1, 0x000091A2000000B3⟩ = .instr (.compose .l1 0x91A2 0xB3) := by decide
/-- R59 (c), both reserved codes. -/
theorem test_decode_reserved : decode ⟨.uop .l1, 0x600000000⟩ = .reject (.reservedOp 6) ∧
    decode ⟨.uop .l2, 0x7FFFFFFFF⟩ = .reject (.reservedOp 7) := by decide
theorem test_decode_too_wide : decode ⟨.req, 0x200000000⟩ = .reject (.wordTooWide .req) ∧
    decode ⟨.rst .l1, 1⟩ = .reject (.wordTooWide (.rst .l1)) := by decide
/-- Rows of opcode_table.json (assumption 7). -/
theorem test_decode_table : decodeTableWord 40 0x000002000 = some (.read 0x2000) ∧
    decodeTableWord 40 0x100000020 = some (.write 0x20) ∧ decodeTableWord 40 0x400000020 = some (.fill .l1 0x20) ∧
    decodeTableWord 35 0x100000020 = some (.probeRd .l1 0x20) ∧ decodeTableWord 35 0x600000000 = none ∧
    decodeTableWord 0 0 = some (.reset .l1) := by decide

/-! ### Vectors, one step each -/

/-- P2 access 3: the read misses both, fills L2 set 256, writes the dirty victim back to L2 set 0 way 1, fills L1. -/
theorem test_read_writes_back :
    see (fun t => (t.rsp6, t.l1.sets)) (exec (.read 0x2000) p2) = some (0b010010#6, [(0, ⟨[(0, ln 1 false)], 0⟩)]) ∧
    see (fun t => t.l2.sets) (exec (.read 0x2000) p2) =
      some [(0, ⟨[(0, ln 0 false), (1, ln 0 false)], 2⟩), (256, ⟨[(0, ln 0 false)], 1⟩)] := by decide
/-- P4 access 7: as P2 access 3, with an L2 hit. -/
theorem test_read_hits_l2 : see (fun t => (t.rsp6, t.l2.sets)) (exec (.read 0x3010) p4) =
    some (0b010001#6, [(128, ⟨[(0, ln 0 false), (1, ln 0 false)], 2⟩), (384, ⟨[(0, ln 0 true)], 1⟩)]) := by decide
/-- P2 access 7: both copies in L2 match, way 0 is dirtied. -/
theorem test_write_dirties_lowest :
    see (fun t => (outputLine t.l1State t.l2State, t.l2.sets))
      (exec (.write 0) (st [(0, ⟨[(0, ln 2 false)], 0⟩)] [(0, ⟨[(0, ln 0 false), (1, ln 0 false), (2, ln 1 false)], 3⟩)]))
    = some (['4', ' ', '3'], [(0, ⟨[(0, ln 0 true), (1, ln 0 false), (2, ln 1 false)], 3⟩)]) := by decide
/-- P1 access 3: a write miss fills nothing. -/
theorem test_write_miss : see (fun t => (t.rsp6, t.l1.sets, t.l2.sets)) (exec (.write 0x20) State.reset) =
    some (0b100100#6, [], []) := by decide
theorem test_nop : see (fun t => (t.l1Reply, t.l1)) (exec (.nop .l1 0) p2) = some (⟨false, 0⟩, p2.l1) := by decide
/-- T14a: the same block hits, another tag of the set misses. -/
theorem test_probeRd : see State.l1Reply (exec (.probeRd .l1 0x1F) p2) = some ⟨true, 0⟩ ∧
    see State.l1Reply (exec (.probeRd .l1 0x2000) p2) = some ⟨false, 0⟩ := by decide
/-- T18: with two copies way 0 only is dirtied. -/
theorem test_probeWr_lowest :
    see (fun t => (t.l1Reply.flag, t.l1.sets))
      (exec (.probeWr .l1 0x204) (withL1 ⟨16, 2, 1⟩ [(0, ⟨[(0, ln 1 false), (1, ln 1 false)], 0⟩)])) =
    some (true, [(0, ⟨[(0, ln 1 true), (1, ln 1 false)], 0⟩)]) := by decide
/-- T14. -/
theorem test_probeWr_miss : see (fun t => (t.l1Reply.flag, t.l1)) (exec (.probeWr .l1 0x2000) p2) =
    some (false, p2.l1) := by decide
/-- T13: the hit line is dirty, the victim slot is way 3 and clean. T13a: with the cursor at 0 it is dirty. -/
theorem test_vdirty :
    see State.l2Reply (exec (.vdirty .l2 0x4000) (st [] [(0, ⟨[(0, ln 0 false), (1, ln 1 true), (2, ln 2 false)], 3⟩)]))
      = some ⟨false, 0⟩ ∧
    see State.l2Reply (exec (.vdirty .l2 0x4000)
      (st [] [(0, ⟨[(0, ln 0 true), (1, ln 1 true), (2, ln 2 false), (3, ln 3 false)], 0⟩)])) = some ⟨true, 0⟩ := by decide
/-- T15: the fifth fill goes to way 0 and leaves the cursor at 1. -/
theorem test_fill_wraps : see (fun t => t.l2.sets)
    (exec (.fill .l2 0x10000) (st [] [(0, ⟨[(0, ln 0 true), (1, ln 1 false), (2, ln 2 false), (3, ln 3 false)], 0⟩)])) =
    some [(0, ⟨[(0, ln 4 false), (1, ln 1 false), (2, ln 2 false), (3, ln 3 false)], 1⟩)] := by decide
/-- T17: way 0's tag, index 7, offset 0. -/
theorem test_vaddr : see State.l1Reply (exec (.vaddr .l1 0x70)
    (withL1 ⟨16, 2, 1⟩ [(7, ⟨[(0, ln 0x91A2B false), (1, ln 0x55E6F false)], 0⟩)])) = some ⟨false, 0x12345670⟩ := by decide
/-- T20: with `tagBits = 0` the whole address is index and offset. -/
theorem test_vaddr_no_tag : see State.l1Reply (exec (.vaddr .l1 0xFFFFFFFF)
    (withL1 ⟨32, 1, 4194304⟩ [(0x7FFFFFF, ⟨[(0, ln 0 false)], 0⟩)])) = some ⟨false, 0xFFFFFFE0⟩ := by decide
/-- T3 and T4: the geometries, and the level is empty. -/
theorem test_configure : see (fun t => (t.l1.geom, t.l1.sets)) (exec (.configure .l1 16 2 1) p2.unbuilt) =
      some (⟨.setAssociative, 1024, 4, 5, 23, 32, 2⟩, []) ∧
    see (fun t => (t.l2.geom, t.l1.cfgOk)) (exec (.configure .l2 16 0 1) p2.unbuilt) =
      some (⟨.fullyAssociative, 1024, 4, 0, 28, 1, 64⟩, false) := by decide
/-- The construction of P1 in one step: T1 and T2, on a block that failed before too (R110); a second one, or a word at a
configuration port, is refused (R120, U10). -/
theorem test_construct :
    see (fun t => (t.constructed, t.l1.geom, t.l2.geom)) (step (failed.present (.construct cfgT1 cfgT2))) =
      some (true, State.reset.l1.geom, State.reset.l2.geom) ∧
    refusalOf (step (p2.present (.construct cfgT1 cfgT2))) = some (.alreadyConstructed .l1) ∧
    refusalOf (step (p2.drive ⟨.cfg .l2, cfgT2⟩)) = some (.alreadyConstructed .l2) := by decide
/-- T9k, T9a with a valid L2 and T9l: the error reported, and no level is left. -/
theorem test_configure_error : see State.cfgError (exec (.configure .l1 24 3 3) p2.unbuilt) =
      some (some ⟨.l1, .blockNotPow2⟩) ∧
    see (fun t => (t.cfgError, t.l2.cfgOk)) (step (p2.unbuilt.present (.construct 0x000000180000000100000008 cfgT2))) =
      some (some ⟨.l1, .blockNotPow2⟩, false) ∧
    see (fun t => (t.cfgError, t.l1.cfgOk)) (step (p2.unbuilt.present (.construct cfgT1 0x000000200000000300000040))) =
      some (some ⟨.l2, .waysNotPow2⟩, false) := by decide
/-- D15: a reset input resets both levels and samples the configuration words then. -/
theorem test_reset_input : see (fun t => (t.l1.geom.numSets, t.l1.sets, t.l2.geom, t.l2.sets))
    (p2.resetInput 0x000000100000000200000001 cfgT2) = some (32, [], p2.l2.geom, []) := by decide
theorem test_reset : see (fun t => (t.l1, t.l2.lineAt .l2 0 0 |>.valid, t.l2.curAt 0)) (exec (.reset .l2) p2) =
    some (p2.l1, false, 0) := by decide
/-- T10, row 12345678, under T1 and T2. -/
theorem test_decode_operation : see State.decoded (exec (.decode .l1 0x12345678) State.reset) = some ⟨0x91A2, 0xB3, 0x18⟩ ∧
    see State.decoded (exec (.decode .l2 0x12345678) State.reset) = some ⟨0x48D1, 0xB3, 0x18⟩ := by decide
/-- T11. -/
theorem test_compose : see State.composed (exec (.compose .l1 0x91A2 0xB3) State.reset) = some 0x12345660 ∧
    see State.composed (exec (.compose .l1 0x7FFFF 0xFF) State.reset) = some 0xFFFFFFE0 := by decide
/-- D20: code 5 and the pair `(NoAction, NoAction)` are faults at the consumer; `2 1` is read back. -/
theorem test_consumer : (consumeRsp6 0b101000).toOption = none ∧ (consumeRsp6 0).toOption = none ∧
    (consumeRsp6 0b010001).toOption = some (.readMiss, .readHit) := by decide
/-- The first step after reset runs the word placed for it: P1 access 3, the configuration of T3, and FILL. -/
theorem test_step_from_reset : see State.rsp6 (step (State.reset.withFetchWord 40 0x100000020)) = some 0b100100 ∧
    see (fun t => t.l1.geom.numSets) (step (State.reset.withFetchWord 96 0x000000100000000200000001)) = some 32 ∧
    see (fun t => t.l1.sets) (step (State.reset.withFetchWord 40 0x400000020)) = some [(1, ⟨[(0, ln 0 false)], 0⟩)] ∧
    nextOf (step State.reset) = some State.reset := by decide
/-- R59 (c), R109: refusals by name. -/
theorem test_refusals : refusalOf (step (State.reset.drive ⟨.uop .l1, 0x600000000⟩)) = some (.illegalWord (.reservedOp 6)) ∧
    refusalOf (exec (.read 0) failed) = some .blockNotConstructed ∧
    refusalOf (exec (.fill .l2 0) failed) = some (.levelNotConstructed .l2) := by decide

/-! ### Witnesses: for each statement with hypotheses, a state and operands that meet them together -/

/-- A level in canonical form that misses is not hit. -/
theorem not_hit {c : CacheLevel} (hwf : c.arrayWf = true) {l : LevelId} {a : Address} (h : c.matchHit a = false) :
    ¬ c.isHit l a := fun hh => by
  have := (c.matchHit_iff hwf l a).2 hh
  rw [h] at this
  cases this

/-- With one way the tags of a set are trivially different. -/
theorem unique_one_way {c : CacheLevel} (hwf : c.arrayWf = true) (h : c.geom.numWays = 1) : c.tagsUnique := by
  intro l k w w' h1 h2 _
  have a1 := (c.listed_of_arrayWf hwf (mem_of_lookup (c.lineAt_listed (.inl h1)))).1
  have a2 := (c.listed_of_arrayWf hwf (mem_of_lookup (c.lineAt_listed (.inl h2)))).1
  omega

/-- The invariant at P2 after access 2, and at P4 after access 6. -/
theorem test_invariant_p2 : p2.Inv where
  l1 := ⟨.inl ⟨rfl, by decide, by decide⟩, by decide, by unfold CacheSet.fillsInOrder; decide⟩
  l2 := ⟨.inl ⟨rfl, by decide, by decide⟩, by decide, by unfold CacheSet.fillsInOrder; decide⟩
  failed := fun h => absurd rfl h
  results := .inl ⟨rfl, rfl⟩

theorem test_invariant_p4 : p4.Inv where
  l1 := ⟨.inl ⟨rfl, by decide, by decide⟩, by decide, by unfold CacheSet.fillsInOrder; decide⟩
  l2 := ⟨.inl ⟨rfl, by decide, by decide⟩, by decide, by unfold CacheSet.fillsInOrder; decide⟩
  failed := fun h => absurd rfl h
  results := .inl ⟨rfl, rfl⟩

theorem test_witness_EncodeThenDecode :
    Instr.wellFormed (.configure .l1 (2 ^ 32 - 1) (2 ^ 32 - 1) (2 ^ 32 - 1)) = true ∧
    Instr.wellFormed (.compose .l2 (2 ^ 32 - 1) 0) = true ∧ Instr.wellFormed (.read 0xFFFFFFFF) = true := by decide
theorem test_witness_DecodeThenEncode :
    decode ⟨.cfg .l2, BitVec.allOnes 96⟩ = .instr (.configure .l2 (2 ^ 32 - 1) (2 ^ 32 - 1) (2 ^ 32 - 1)) := by decide
/-- One for each clause. -/
theorem test_witness_StepRunsDecodedInstruction :
    ((p2.drive ⟨.uop .l1, 0x400000020⟩).bench = ⟨.uop .l1, 0x400000020⟩ :: [] ∧
      decode ⟨.uop .l1, 0x400000020⟩ = .instr (.fill .l1 0x20)) ∧
    ((p2.present (.access 0x2000)).bench = [] ∧ (p2.present (.access 0x2000)).inputs = .access 0x2000 :: [] ∧
      decode ⟨.req, (0x2000#33).setWidth 96⟩ = .instr (.read 0x2000)) ∧
    (p2.unbuilt.present (.construct cfgT1 cfgT2)).inputs = .construct cfgT1 cfgT2 :: [] ∧
    decode ⟨.cfg .l1, cfgT1⟩ = .instr (.configure .l1 32 1 8) ∧
    decode ⟨.cfg .l2, cfgT2⟩ = .instr (.configure .l2 32 4 64) := by decide
theorem test_witness_StepRefusesReservedCodes : 6 ≤ (6#3).toNat ∧ 6 ≤ (7#3).toNat ∧
    (p2.drive ⟨.uop .l1, (6#3 ++ (0 : Address)).setWidth 96⟩).bench =
      ⟨.uop .l1, (6#3 ++ (0 : Address)).setWidth 96⟩ :: [] := by decide
theorem test_witness_StepWithoutInputChangesNothing : p2.bench = [] ∧ p2.inputs = [] := by decide
/-- An operation with something presented, and a step of each kind. -/
theorem test_witness_OperationsLeaveInputsAlone :
    see (fun t => (t.inputs, t.bench)) (exec (.read 0x2000) (p2.present (.access 0))) = some ([.access 0], []) ∧
    (nextOf (step (p2.drive ⟨.uop .l1, 0⟩))).isSome = true ∧ (nextOf (step (p2.present (.access 0)))).isSome = true ∧
    (nextOf (step (p2.unbuilt.present (.construct cfgT1 cfgT2)))).isSome = true := by decide
/-- A construction and an access from a block without levels, a construction that fails, and an access to constructed
levels; what no legal environment does. -/
theorem test_witness_LegalRunNeverStops :
    p2.unbuilt.bench = [] ∧ p2.unbuilt.l1.cfgOk = false ∧ p2.unbuilt.l2.cfgOk = false ∧
    legalInputs [.construct cfgT1 cfgT2, .access 0x100000020] = true ∧ legalInputs [.construct 0 cfgT2] = true ∧
    (p2.constructed = true ∧ [Interaction.access 0x100000020].all isAccessInput = true) ∧
    legalInputs [.construct 0 cfgT2, .access 0] = false ∧ legalInputs [.access 0] = false ∧
    legalInputs [.construct cfgT1 cfgT2, .construct cfgT1 cfgT2] = false := by decide
/-- T7 (`S = 1`) and T8 (`tagBits = 0`); for L2, no failure of L1. -/
theorem test_witness_ConfigureBuildsSetAssociative : (p2.unbuilt.level .l2).cfgOk = false ∧ p2.unbuilt.l1Failed = false ∧
    (10 + 0 ≤ 0 + 10 ∧ 0 + 10 - 0 ≤ 32) ∧ (5 + 0 ≤ 22 + 10 ∧ 22 + 10 - 0 ≤ 32) := by decide
/-- T8a (`W = 1`) and a block of `2^32` bytes. -/
theorem test_witness_ConfigureBuildsFullyAssociative : (p2.unbuilt.level .l2).cfgOk = false ∧ p2.unbuilt.l1Failed = false ∧
    (10 ≤ 0 + 10 ∧ 10 ≤ 32) ∧ (32 ≤ 22 + 10 ∧ 32 ≤ 32) := by decide
/-- T9b, T9d, T9e, T9i, T9g, a fully-associative block of `2^33` bytes, T9j, a fully-associative block of `2^32` bytes,
T8: one for each clause. -/
theorem test_witness_ConfigureReportsFirstFailedCheck : p2.unbuilt.l1.cfgOk = false ∧
    isPow2 0 = false ∧ (32 = 2 ^ 5 ∧ isPow2 0 = false) ∧ (32 = 2 ^ 5 ∧ 8 = 2 ^ 3 ∧ 3 ≠ 0 ∧ isPow2 3 = false) ∧
    (2048 = 2 ^ 11 ∧ 1 = 2 ^ 0 ∧ 0 + 10 < 11) ∧ (1024 = 2 ^ 10 ∧ 1 = 2 ^ 0 ∧ 2 = 2 ^ 1 ∧ 0 + 10 < 10 + 1) ∧
    (33 ≤ 23 + 10 ∧ 32 < 33) ∧ (8388608 = 2 ^ 23 ∧ 5 + 0 ≤ 23 + 10 ∧ 32 < 23 + 10 - 0) ∧
    (32 ≤ 22 + 10 ∧ 32 ≤ 32) ∧ (4194304 = 2 ^ 22 ∧ 5 + 0 ≤ 22 + 10 ∧ 22 + 10 - 0 ≤ 32) := by decide
theorem test_not_pow2 (n : Nat) (h : isPow2 n = false) : ¬ ∃ k, n = 2 ^ k := by
  rw [← isPow2_iff, h]; decide
/-- T9a. -/
theorem test_witness_FirstLevelErrorIsReported : p2.unbuilt.l1.cfgOk = false ∧
    validate ⟨24, 1, 8⟩ = some .blockNotPow2 := by decide
/-- T9l. -/
theorem test_witness_ConfigErrorLeavesBlockInert : validate ⟨32, 3, 64⟩ = some .waysNotPow2 ∧
    p2.unbuilt.l1Failed = false ∧ (nextOf (exec (.configure .l2 32 3 64) p2.unbuilt)).isSome = true := by decide
/-- T8 and T8c; for the corner cases T7, T6 and T8. -/
theorem test_witness_ValidGeometry : validate ⟨32, 1, 4194304⟩ = none ∧ validate ⟨32, 32, 1⟩ = none ∧
    (deriveGeometry ⟨32, 32, 1⟩).numSets = 1 ∧
    (validate ⟨1024, 1, 1⟩ = none ∧ (deriveGeometry ⟨1024, 1, 1⟩).indexBits = 0) ∧
    (validate ⟨1, 1, 1⟩ = none ∧ (deriveGeometry ⟨1, 1, 1⟩).offsetBits = 0) ∧
    (deriveGeometry ⟨32, 1, 4194304⟩).tagBits = 0 := by decide
/-- The level of `test_vaddr_no_tag`, for clause (c) of the corner cases. -/
theorem test_witness_DecodeCornerCases_noTag :
    let c := (withL1 ⟨32, 1, 4194304⟩ [(0x7FFFFFF, ⟨[(0, ln 0 false)], 0⟩)]).l1
    c.geom = deriveGeometry ⟨32, 1, 4194304⟩ ∧ c.arrayWf = true ∧ 0 < c.geom.numWays ∧
    (c.lineAt .l1 (c.selectSet 0xFFFFFFFF) 0).valid = true := by decide
/-- One for each clause. -/
theorem test_witness_OnlyConfigureWritesGeometry : (nextOf (exec (.fill .l1 0) p2)).isSome = true ∧
    (p2.level .l2).cfgOk = true ∧
    (p2.constructed = true ∧ (nextOf (step (p2.present (.access 0x2000)))).isSome = true) ∧
    (p2.present (.construct cfgT1 cfgT2)).inputs = .construct cfgT1 cfgT2 :: [] ∧
    (p2.present (.construct cfgT1 cfgT2)).bench = [] := by decide
/-- The block before construction, the words of T3 and T2. -/
theorem test_witness_ResetStateIsEmpty : validate ⟨(16#32).toNat, (2#32).toNat, (1#32).toNat⟩ = none ∧
    validate ⟨(32#32).toNat, (4#32).toNat, (64#32).toNat⟩ = none ∧ p2.unbuilt.l1.cfgOk = false ∧
    p2.unbuilt.l2.cfgOk = false ∧
    (p2.unbuilt.present (.construct (16#32 ++ 2#32 ++ 1#32) (32#32 ++ 4#32 ++ 64#32))).bench = [] := by decide
/-- A constructed level (ResetEmptiesLevel, DecodeExtractsFields, VdirtyReportsVictimSlot, FillInstallsAtCursor,
LevelOperationsAreTotal), in canonical form (ProbeRdReportsHit), and the two together with the invariant
(VaddrReconstructsVictim; InvariantMeansPrefix with a valid victim slot in L1 and an invalid one in L2). -/
theorem test_witness_constructed : (p2.level .l1).cfgOk = true ∧ (p2.level .l2).cfgOk = true ∧
    p2.constructed = true ∧ Memory.wf p2 = true ∧
    (p2.l1.lineAt .l1 0 (p2.l1.curAt 0)).valid = true ∧ (p2.l2.lineAt .l2 0 (p2.l2.curAt 0)).valid = false := by decide
/-- The largest tag and index of T1, and the first beyond them. -/
theorem test_witness_ComposePacksFields : p2.l1.consistent ∧
    (0x7FFFF < 2 ^ p2.l1.geom.tagBits ∧ 0xFF < 2 ^ p2.l1.geom.indexBits) ∧ ¬ 0x80000 < 2 ^ p2.l1.geom.tagBits :=
  ⟨.inl ⟨rfl, by decide, by decide⟩, by decide, by decide⟩
/-- T27: two addresses of one block at both levels, for SameBlockSameTagAndIndex and AccessesSeeBlocksOnly. -/
theorem test_witness_AccessesSeeBlocksOnly : p2.l1.consistent ∧ p2.l2.consistent ∧
    (0x1F#32).toNat / p2.l1.cfg.blockSizeBytes = (0x10#32).toNat / p2.l1.cfg.blockSizeBytes ∧
    (0x1F#32).toNat / p2.l2.cfg.blockSizeBytes = (0x10#32).toNat / p2.l2.cfg.blockSizeBytes :=
  ⟨.inl ⟨rfl, by decide, by decide⟩, .inl ⟨rfl, by decide, by decide⟩, by decide, by decide⟩
/-- T18: two copies, the lowest is way 0. -/
theorem test_witness_ProbeWrDirtiesLowestMatch :
    let c := (withL1 ⟨16, 2, 1⟩ [(0, ⟨[(0, ln 1 false), (1, ln 1 false)], 0⟩)]).l1
    c.cfgOk = true ∧ c.arrayWf = true ∧ c.matchesAt .l1 0x204 0 ∧ ∀ w', w' < 0 → ¬ c.matchesAt .l1 0x204 w' :=
  ⟨by decide, by decide, ⟨by decide, by decide, by decide⟩, fun _ h => absurd h (by omega)⟩
/-- A miss at both levels: the last clause of ProbeWrDirtiesLowestMatch, WriteMissInstallsNothing, the fourth and sixth clauses of
ResultPairsAndLines, and (L1's victim dirty, P2 access 3) the last of ReadFillsAndWritesBack. -/
theorem test_witness_miss : p2.constructed = true ∧ p2.l1.arrayWf = true ∧ p2.l2.arrayWf = true ∧
    ¬ p2.l1.isHit .l1 0x2000 ∧ ¬ p2.l2.isHit .l2 0x2000 ∧ p2.l1.vdirty 0x2000 = true :=
  ⟨rfl, by decide, by decide, not_hit (by decide) (by decide), not_hit (by decide) (by decide), by decide⟩
/-- A hit in L1: L1HitShortCircuits, the first clause of ReadFillsAndWritesBack, WriteHitDirtiesL1, and with one way DirectMappedWriteHitIsVictimDirty. -/
theorem test_witness_l1_hit : p2.constructed = true ∧ p2.l1.arrayWf = true ∧ p2.l1.geom.numWays = 1 ∧
    p2.l1.isHit .l1 0x1F ∧ p2.l1.matchesAt .l1 0x1F 0 ∧ ∀ w', w' < 0 → ¬ p2.l1.matchesAt .l1 0x1F w' :=
  ⟨rfl, by decide, rfl, ⟨0, by decide, by decide, by decide⟩, ⟨by decide, by decide, by decide⟩,
    fun _ h => absurd h (by omega)⟩
/-- A miss in L1 and a hit in L2, the L1 victim dirty (P4 access 7): the third clause of ReadFillsAndWritesBack,
WriteMissDirtiesL2, and with the copy at way 0 and the cursor at way 1 WriteBackInstallsSecondCopy. -/
theorem test_witness_l2_hit : p4.constructed = true ∧ p4.l1.arrayWf = true ∧ p4.l2.arrayWf = true ∧
    ¬ p4.l1.isHit .l1 0x3010 ∧ p4.l2.isHit .l2 0x3010 ∧ p4.l2.matchesAt .l2 0x3010 0 ∧ p4.l1.vdirty 0x3010 = true ∧
    p4.l2.matchesAt .l2 (p4.l1.vaddr .l1 0x3010) 0 ∧
    0 ≠ p4.l2.curAt (p4.l2.fieldsOf (p4.l1.vaddr .l1 0x3010)).index :=
  ⟨rfl, by decide, by decide, not_hit (by decide) (by decide), ⟨0, by decide, by decide, by decide⟩,
    ⟨by decide, by decide, by decide⟩, by decide, ⟨by decide, by decide, by decide⟩, by decide⟩
/-- A clean L1 victim: with an L2 hit (P2 access 4) and without (P1 access 1), the second and fourth clauses of
ReadFillsAndWritesBack. -/
theorem test_witness_clean_victim :
    (let s := st [(0, ⟨[(0, ln 1 false)], 0⟩)] [(0, ⟨[(0, ln 0 false), (1, ln 0 false)], 2⟩)]
     s.l1.arrayWf = true ∧ s.l2.arrayWf = true ∧ s.l1.matchHit 0 = false ∧ s.l2.matchHit 0 = true ∧
       s.l1.vdirty 0 = false) ∧
    State.reset.l1.matchHit 0 = false ∧ State.reset.l2.matchHit 0 = false ∧ State.reset.l1.vdirty 0 = false := by decide
theorem test_witness_LevelOperationsStayInTheirSet :
    (nextOf (exec (.probeWr .l1 0) p2)).isSome = true ∧ (nextOf (exec (.fill .l2 0) p2)).isSome = true := by decide
/-- Two fills of set 0 and a probe, as in T15. -/
theorem test_witness_RoundRobinLaw : State.reset.l2.cfgOk = true ∧ State.reset.l2.sets = [] ∧
    (∀ i ∈ [Instr.fill .l2 0, .fill .l2 0x4000, .probeWr .l2 0], i.isLevelOp = true) ∧
    fillsOf .l2 State.reset.l2.geom 0 [.fill .l2 0, .fill .l2 0x4000, .probeWr .l2 0] = 2 ∧
    see (fun t => t.l2.curAt 0) (execAll [.fill .l2 0, .fill .l2 0x4000, .probeWr .l2 0] State.reset) = some 2 := by decide
theorem test_witness_RepeatedReadHits : p2.Inv ∧ (nextOf (exec (.read 0x2000) p2)).isSome = true :=
  ⟨test_invariant_p2, by decide⟩
theorem test_witness_ResponseWordIsLegal : Instr.isAccess (.write 0) = true ∧
    (nextOf (exec (.write 0) p2)).isSome = true := by decide
theorem test_witness_WriteNeverAllocates : (nextOf (exec (.write 0) p2)).isSome = true := by decide
/-- A step from a state with the invariant and an access presented. -/
theorem test_witness_StepKeepsInvariant : (p2.present (.access 0x2000)).Inv ∧
    (nextOf (step (p2.present (.access 0x2000)))).isSome = true :=
  ⟨⟨test_invariant_p2.l1, test_invariant_p2.l2, test_invariant_p2.failed, test_invariant_p2.results⟩, by decide⟩
/-- A state after ConfigError meets the invariant too. -/
theorem test_invariant_failed : failed.Inv where
  l1 := ⟨.inr rfl, by decide, by simp [failed, State.raiseConfigError, CacheLevel.absent]⟩
  l2 := ⟨.inr rfl, by decide, by simp [failed, State.raiseConfigError, CacheLevel.absent]⟩
  failed := fun _ => ⟨rfl, rfl⟩
  results := .inl ⟨rfl, rfl⟩
theorem test_witness_ValidLinesStayValid : p2.constructed = true ∧ (nextOf (exec (.fill .l2 0) p2)).isSome = true ∧
    (p2.l2.lineAt .l2 0 0).valid = true := by decide
theorem test_witness_DirtyVictimIsValid : p4.Inv ∧ p4.l1.vdirty 0x3010 = true := ⟨test_invariant_p4, by decide⟩
theorem test_witness_AccessesKeepL1TagsUnique : p2.Inv ∧ p2.l1.tagsUnique ∧
    (∀ i ∈ [Instr.read 0x2000], i.isAccess = true) ∧ (nextOf (execAll [.read 0x2000] p2)).isSome = true :=
  ⟨test_invariant_p2, unique_one_way (by decide) rfl, by decide, by decide⟩
theorem test_witness_WriteBackInstallsSecondCopy : p4.Inv := test_invariant_p4
/-- The same with an L2 miss (P2 access 3): the victim's block 0 is resident at way 0, and the cursor at way 1. -/
theorem test_witness_WriteBackInstallsSecondCopy_miss :
    (p2.l2.fill 0x2000).matchesAt .l2 (p2.l1.vaddr .l1 0x2000) 0 ∧
    0 ≠ (p2.l2.fill 0x2000).curAt ((p2.l2.fill 0x2000).fieldsOf (p2.l1.vaddr .l1 0x2000)).index :=
  ⟨⟨by decide, by decide, by decide⟩, by decide⟩
/-- P2's end state with either value of `MULTI_MATCH` in L2 way 1. -/
theorem test_witness_L2DirtyBitsAreInvisible :
    let s := st [] [(0, ⟨[(0, ln 0 true), (1, ln 0 false)], 2⟩)]
    let t := st [] [(0, ⟨[(0, ln 0 true), (1, ln 0 true)], 2⟩)]
    s ≠ t ∧ sameButL2Dirty s t ∧ (∀ i ∈ [Instr.read 0, .write 0], i.isAccess = true) ∧
    responses [.read 0, .write 0] s = [0b010001, 0b011000] := by
  unfold sameButL2Dirty; decide
/-- One read and one write, from P2 after access 2. -/
theorem test_witness_UnwrittenTagsAreInvisible : (∀ i ∈ [Instr.read 0x2000, .write 0], i.isAccess = true) ∧
    responses [.read 0x2000, .write 0] p2 = [0b010010, 0b100011] := by decide
/-- P2 access 7, where two copies in L2 match. -/
theorem test_witness_MultiMatchIsInvisible :
    (st [(0, ⟨[(0, ln 2 false)], 0⟩)] []).l1.arrayWf = true ∧ (st [(0, ⟨[(0, ln 2 false)], 0⟩)] []).l1.tagsUnique :=
  ⟨by decide, unique_one_way (by decide) rfl⟩

end Sys2Proof.Tests
end

section
/-! PROOFS. The scope of a step (00_scope.md): what a step runs, by what is presented. -/

namespace Sys2Proof.Machine

open Sys2Proof

/-- An access runs the operation of its request word (R48, R88). -/
theorem State.access_of_decode {w : BitVec 33} {i : Instr} (h : decode ⟨.req, w.setWidth 96⟩ = .instr i) (s : State) :
    s.access w = exec i s :=
  runWord_of_decode h s

/-- A construction runs the operation of L1's word, then that of L2's on the state it leaves (R117). -/
theorem State.construct_of_decode {w1 w2 : BitVec 96} {i1 i2 : Instr} (h1 : decode ⟨.cfg .l1, w1⟩ = .instr i1)
    (h2 : decode ⟨.cfg .l2, w2⟩ = .instr i2) (s : State) : s.construct w1 w2 = andThen (exec i1 s) (exec i2) := by
  have hL2 : runWord ⟨.cfg .l2, w2⟩ = exec i2 := funext (runWord_of_decode h2)
  rw [State.construct, runWord_of_decode h1, hL2]

/-- Settles O7: one clause each for what a test bench drives, an access and a construction. -/
theorem stepRunsDecodedInstruction : Obligations.StepRunsDecodedInstruction := by
  intro s
  refine ⟨?bench, ?access, ?construct⟩
  case bench =>
    intro pw rest i hb hd
    rw [step_of_bench hb, runWord_of_decode hd]
  case access =>
    intro w rest i hb hin hd
    rw [step_of_input hb hin, interact, State.access_of_decode hd]
  case construct =>
    intro w1 w2 rest i1 i2 hb hin h1 h2
    rw [step_of_input hb hin, interact, State.construct_of_decode h1 h2]

end Sys2Proof.Machine
end

section
/-! PROOFS. The invariant of the block (10_state.md R25): what is true after reset, what every operation keeps of the
registers and the invariant, and what the invariant says of lines and cursors. -/

namespace Sys2Proof.Machine

open Sys2Proof

/-! ### Packaged induction over a step -/

/-- What holds whatever is presented and is kept by every operation is kept by every step. -/
theorem step_keeps {P : State → Prop} (htake : ∀ s inputs bench, P s → P { s with inputs := inputs, bench := bench })
    (hexec : ∀ i s t, P s → exec i s = .next t → P t) {s t : State} (hs : P s) (h : step s = .next t) : P t := by
  rcases step_next h with ⟨-, -, rfl⟩ | ⟨pw, rest, i, -, -, he⟩ | ⟨i, rest, -, -, hi⟩
  · exact hs
  · exact hexec _ _ _ (htake s s.inputs rest hs) he
  · have hs' := htake s rest s.bench hs
    rcases interact_next hi with ⟨j, hj⟩ | ⟨j, k, u, hj, hk⟩
    · exact hexec _ _ _ hs' hj
    · exact hexec _ _ _ (hexec _ _ _ hs' hj) hk

/-! ### The configuration and geometry registers -/

/-- The configuration and geometry registers and `cfg_ok` of both levels are the same (R11, R12). -/
def State.sameGeometry (s t : State) : Prop := ∀ l, (t.level l).cfg = (s.level l).cfg ∧
  (t.level l).geom = (s.level l).geom ∧ (t.level l).cfgOk = (s.level l).cfgOk

theorem State.sameGeometry_refl (s : State) : s.sameGeometry s := fun _ => ⟨rfl, rfl, rfl⟩

theorem State.sameGeometry.trans {s t u : State} (h : s.sameGeometry t) (h' : t.sameGeometry u) : s.sameGeometry u := by
  intro l
  obtain ⟨hcfg, hgeom, hok⟩ := h l
  obtain ⟨hcfg', hgeom', hok'⟩ := h' l
  exact ⟨hcfg'.trans hcfg, hgeom'.trans hgeom, hok'.trans hok⟩

theorem State.sameGeometry.constructed {s t : State} (h : s.sameGeometry t) : t.constructed = s.constructed :=
  congrArg₂ _ (h .l1).2.2 (h .l2).2.2

/-- Every operation but CONFIGURE leaves the registers of both levels (R11, R44). -/
theorem exec_sameGeometry {i : Instr} {s t : State} (hn : ∀ l b w k, i ≠ .configure l b w k)
    (h : exec i s = .next t) : s.sameGeometry t := fun l =>
  exec_level h l
    (fun c => c.cfg = (s.level l).cfg ∧ c.geom = (s.level l).geom ∧ c.cfgOk = (s.level l).cfgOk)
    ⟨rfl, rfl, rfl⟩
    (fun _ _ _ hc => hc)
    (fun _ _ _ hc => by simpa using hc)
    (fun _ _ _ hc => hc)
    (fun _ _ _ hi => absurd hi (hn _ _ _ _))
    (fun _ _ _ _ hi => absurd hi (hn _ _ _ _))

theorem State.cfgOk_of_constructed {s : State} (h : s.constructed = true) (l : LevelId) : (s.level l).cfgOk = true := by
  obtain ⟨h1, h2⟩ := s.constructed_iff.1 h
  cases l
  exacts [h1, h2]

/-- On a constructed block no CONFIGURE goes on (R120, U10). -/
theorem ne_configure_of_constructed {i : Instr} {s t : State} (hs : s.constructed = true) (h : exec i s = .next t) :
    ∀ l b w k, i ≠ .configure l b w k := by
  rintro l b w k rfl
  have hok := (exec_configure_next h).1
  rw [State.cfgOk_of_constructed hs l] at hok
  cases hok

/-- No step, whatever is presented, changes the registers of a constructed block. -/
theorem step_sameGeometry {s t : State} (hs : s.constructed = true) (h : step s = .next t) : s.sameGeometry t :=
  step_keeps (P := s.sameGeometry) (fun _ _ _ hu => hu)
    (fun _ _ _ hu he => hu.trans (exec_sameGeometry (ne_configure_of_constructed (hu.constructed.trans hs) he) he))
    s.sameGeometry_refl h

/-- Settles O20: each operation by `exec_level`, a step by `step_keeps`. -/
theorem onlyConfigureWritesGeometry : Obligations.OnlyConfigureWritesGeometry := by
  refine ⟨fun i s t hn h => exec_sameGeometry hn h, fun s l b w k h => execConfigure_refused b w k h,
    fun s t hs h => step_sameGeometry hs h, ?construct⟩
  case construct =>
    intro s w1 w2 rest hok hb hin
    rw [step_of_input hb hin]
    exact State.construct_refused (s := { s with inputs := rest }) hok w1 w2

/-! ### Levels just constructed -/

/-- A constructed level with the geometry of its configuration and nothing listed (R23). -/
structure CacheLevel.IsFresh (c : CacheLevel) : Prop where
  cfgOk : c.cfgOk = true
  valid : validate c.cfg = none
  geom : c.geom = deriveGeometry c.cfg
  sets : c.sets = []

/-- In a fresh level every line is invalid and clean. -/
theorem CacheLevel.IsFresh.line {c : CacheLevel} (h : c.IsFresh) (l : LevelId) (k w : Nat) :
    (c.lineAt l k w).valid = false ∧ (c.lineAt l k w).dirty = false := by
  rw [CacheLevel.lineAt_of_empty h.sets]
  exact ⟨rfl, rfl⟩

/-- In a fresh level every cursor is 0. -/
theorem CacheLevel.IsFresh.cursor {c : CacheLevel} (h : c.IsFresh) (k : Nat) : c.curAt k = 0 := by
  rw [CacheLevel.curAt, CacheLevel.setAt_of_empty h.sets]
  rfl

/-- Both levels are fresh, both results `NoAction`, and no error is recorded (R23, R124). -/
structure State.IsFresh (t : State) : Prop where
  cfgError : t.cfgError = none
  l1State : t.l1State = .noAction
  l2State : t.l2State = .noAction
  level : ∀ l, (t.level l).IsFresh

theorem State.reset_isFresh : State.reset.IsFresh where
  cfgError := rfl
  l1State := rfl
  l2State := rfl
  level l := by cases l <;> exact ⟨rfl, by decide, by decide, rfl⟩

theorem CacheLevel.construct_isFresh (c : CacheLevel) {cfg : CfgIn} (h : validate cfg = none) :
    (c.construct cfg).IsFresh := ⟨rfl, h, rfl, rfl⟩

/-- Two valid configurations leave a fresh block, whatever was there before. -/
theorem State.constructLevel_isFresh (s : State) {c1 c2 : CfgIn} (h1 : validate c1 = none) (h2 : validate c2 = none) :
    ((s.constructLevel .l1 c1).constructLevel .l2 c2).IsFresh where
  cfgError := rfl
  l1State := rfl
  l2State := rfl
  level l := by
    cases l
    exacts [s.l1.construct_isFresh h1, s.l2.construct_isFresh h2]

/-- The construction of a block of which no level exists succeeds with two valid configurations (R117). -/
theorem State.construct_of_valid {s : State} {w1 w2 : BitVec 96} (h1 : s.l1.cfgOk = false) (h2 : s.l2.cfgOk = false)
    (hv1 : validate (cfgOfWord w1) = none) (hv2 : validate (cfgOfWord w2) = none) :
    s.construct w1 w2 = .next ((s.constructLevel .l1 (cfgOfWord w1)).constructLevel .l2 (cfgOfWord w2)) := by
  rw [State.construct_unbuilt h1 h2, hv1, hv2]

/-- The configuration a word of three 32-bit fields asks for (R54). -/
theorem cfgOfWord_append (b w k : BitVec 32) : cfgOfWord (b ++ w ++ k) = ⟨b.toNat, w.toNat, k.toNat⟩ := by
  have e : (b ++ w ++ k).toNat = (b.toNat * 2 ^ 32 + w.toNat) * 2 ^ 32 + k.toNat := by
    rw [BitVec.toNat_append, BitVec.toNat_append, ← Nat.shiftLeft_add_eq_or_of_lt k.isLt,
      ← Nat.shiftLeft_add_eq_or_of_lt w.isLt, Nat.shiftLeft_eq, Nat.shiftLeft_eq]
  have hb : bitField (b ++ w ++ k).toNat 64 32 = b.toNat := by
    rw [e, bitField_high (n := 32) k.isLt, bitField_high (n := 0) w.isLt, bitField_all b.isLt]
  have hw : bitField (b ++ w ++ k).toNat 32 32 = w.toNat := by
    rw [e, bitField_high (n := 0) k.isLt, bitField_low w.isLt]
  have hk : bitField (b ++ w ++ k).toNat 0 32 = k.toNat := by
    rw [e, bitField_low k.isLt]
  rw [cfgOfWord, hb, hw, hk]

/-- Settles O22: the construction and the reset input both end in the two CONFIGURE, which leave a fresh block. -/
theorem resetStateIsEmpty : Obligations.ResetStateIsEmpty := by
  unfold Obligations.ResetStateIsEmpty
  intro fresh
  have fresh_of : ∀ t : State, t.IsFresh → fresh t := fun t h =>
    ⟨h.cfgError, h.l1State, h.l2State, fun l => ⟨(h.level l).cfgOk, (h.level l).valid, (h.level l).geom,
      (h.level l).line l, (h.level l).cursor⟩⟩
  refine ⟨fresh_of _ State.reset_isFresh, fun s b1 w1 k1 b2 w2 k2 hv1 hv2 => ?_⟩
  have made := fun u : State => fresh_of _ (u.constructLevel_isFresh hv1 hv2)
  rw [← cfgOfWord_append] at hv1 hv2
  refine ⟨fun rest h1 h2 hb hin => ?construct, ?resetInput⟩
  case construct =>
    refine ⟨_, (step_of_input hb hin).trans (State.construct_of_valid h1 h2 hv1 hv2), rfl, ?_⟩
    simp only [cfgOfWord_append]
    exact ⟨rfl, rfl, made _⟩
  case resetInput =>
    refine ⟨_, State.construct_of_valid (s := s.unbuilt) rfl rfl hv1 hv2, ?_⟩
    simp only [cfgOfWord_append]
    exact ⟨rfl, rfl, made _⟩

/-- Settles O18, on the exponents of `validate_eq_none_iff`. -/
theorem validGeometryHoldsCapacity : Obligations.ValidGeometryHoldsCapacity := by
  rintro ⟨b, w, kb⟩ hv
  refine ⟨(Geometry.sound_of_valid hv).numSets, ?_⟩
  obtain ⟨k, m, hb, hm, hw⟩ := (validate_eq_none_iff _).1 hv
  simp only at hb hm hw
  subst hb hm
  rcases hw with ⟨rfl, hk, -⟩ | ⟨j, rfl, hk, -⟩
  · rw [deriveGeometry_zero_ways hk]
    refine ⟨?_, m + 10 - k, rfl⟩
    rw [Nat.one_mul, ← Nat.pow_add, capacityBytes_two_pow]
    congr 1
    omega
  · rw [deriveGeometry_two_pow hk]
    refine ⟨?_, j, rfl⟩
    simp only
    rw [← Nat.pow_add, ← Nat.pow_add, capacityBytes_two_pow]
    congr 1
    omega

/-! ### The invariant and the operations -/

/-- A level with nothing listed meets the invariant as soon as its registers are consistent. -/
theorem CacheLevel.Inv.of_empty {c : CacheLevel} (hc : c.consistent) (h : c.sets = []) : c.Inv where
  consistent := hc
  array := CacheLevel.arrayWf_of_empty h
  inOrder := by simp [h]

theorem CacheLevel.IsFresh.inv {c : CacheLevel} (h : c.IsFresh) : c.Inv :=
  .of_empty (.inl ⟨h.cfgOk, h.valid, h.geom⟩) h.sets

theorem State.IsFresh.inv {t : State} (h : t.IsFresh) : t.Inv where
  l1 := (h.level .l1).inv
  l2 := (h.level .l2).inv
  failed he := absurd h.cfgError he
  results := .inl ⟨h.l1State, h.l2State⟩

/-- Settles O51: the reset state is fresh. -/
theorem resetMeetsInvariant : Obligations.ResetMeetsInvariant := State.reset_isFresh.inv

theorem CacheLevel.absent_inv (n : Nat) : (CacheLevel.absent n).Inv := .of_empty (.inr rfl) rfl

/-- RESET of a constructed level keeps the invariant. -/
theorem CacheLevel.Inv.clear {c : CacheLevel} (h : c.Inv) (hok : c.cfgOk = true) : c.clear.Inv := by
  refine .of_empty ?_ rfl
  rcases h.consistent with hc | ha
  · exact .inl hc
  · rw [ha] at hok; cases hok

/-- Every operation keeps the invariant of each level. -/
theorem exec_level_inv {i : Instr} {s t : State} (h : exec i s = .next t) (l : LevelId) (hs : (s.level l).Inv) :
    (t.level l).Inv :=
  exec_level h l CacheLevel.Inv hs
    (fun _ a hok hc => hc.fill hok a)
    (fun _ a hok hc => hc.probeWr hok _ a)
    (fun _ _ hok hc => hc.clear hok)
    (fun _ _ _ _ hv c _ _ => (c.construct_isFresh hv).inv)
    (fun _ _ _ _ _ c _ => CacheLevel.absent_inv c.epoch)

/-- Every operation keeps that an error is recorded only while no level exists (R109). -/
theorem exec_keeps_failed {i : Instr} {s t : State} (h : exec i s = .next t)
    (hs : s.cfgError ≠ none → s.l1.cfgOk = false ∧ s.l2.cfgOk = false) (ht : t.cfgError ≠ none) :
    t.l1.cfgOk = false ∧ t.l2.cfgOk = false := by
  by_cases hi : ∃ l b w k, i = .configure l b w k
  · obtain ⟨l, b, w, k, rfl⟩ := hi
    obtain ⟨-, ⟨-, -, rfl⟩ | ⟨r, -, rfl⟩ | ⟨-, rfl⟩⟩ := exec_configure_next h
    · exact hs ht
    · exact ⟨rfl, rfl⟩
    · exact absurd rfl ht
  · simp only [not_exists] at hi
    have hsame := exec_sameGeometry hi h
    obtain ⟨-, he | he | ⟨h1, h2⟩, -⟩ := exec_outputs h
    · rw [he] at ht
      obtain ⟨h1, h2⟩ := hs ht
      exact ⟨(hsame .l1).2.2.trans h1, (hsame .l2).2.2.trans h2⟩
    · exact absurd he ht
    · rw [h1, h2]; exact ⟨rfl, rfl⟩

/-- Every operation keeps the invariant of the block. -/
theorem exec_inv {i : Instr} {s t : State} (h : exec i s = .next t) (hs : s.Inv) : t.Inv where
  l1 := exec_level_inv h .l1 hs.l1
  l2 := exec_level_inv h .l2 hs.l2
  failed := exec_keeps_failed h hs.failed
  results := by
    obtain ⟨⟨h1, h2⟩ | hno | hpair, -⟩ := exec_outputs h
    · rw [h1, h2]; exact hs.results
    · exact .inl hno
    · exact .inr hpair

/-- Settles O52: every operation keeps the invariant, and the invariant says nothing of what is presented. -/
theorem stepKeepsInvariant : Obligations.StepKeepsInvariant := fun _ _ hs h =>
  step_keeps (P := State.Inv) (fun _ _ _ hs => ⟨hs.l1, hs.l2, hs.failed, hs.results⟩) (fun _ _ _ hs he => exec_inv he hs)
    hs h

/-! ### What the invariant says of lines and cursors -/

/-- In canonical form a valid line is a line of the set. -/
theorem CacheLevel.lt_numWays_of_valid {c : CacheLevel} (hwf : c.arrayWf = true) {l : LevelId} {k w : Nat}
    (h : (c.lineAt l k w).valid = true) : w < c.geom.numWays :=
  (CacheLevel.listed_of_arrayWf hwf (mem_of_lookup (c.lineAt_listed (.inl h)))).1

/-- In canonical form a dirty line is valid (R25 item 2). -/
theorem CacheLevel.valid_of_dirty {c : CacheLevel} (hwf : c.arrayWf = true) {l : LevelId} {k w : Nat}
    (h : (c.lineAt l k w).dirty = true) : (c.lineAt l k w).valid = true :=
  (CacheLevel.listed_of_arrayWf hwf (mem_of_lookup (c.lineAt_listed (.inr h)))).2.1

/-- The cursor of a constructed level is a way of the set (R25 item 1). -/
theorem CacheLevel.Inv.cursor_lt {c : CacheLevel} (h : c.Inv) (hok : c.cfgOk = true) (k : Nat) :
    c.curAt k < c.geom.numWays := by
  have hpos := (CacheLevel.consistent.sound h.consistent hok).numWays_pos
  exact ((CacheSet.wf_iff _ _).1 (CacheLevel.wf_setAt h.array hpos k)).2.2

/-- A set lists at most its ways. -/
theorem CacheLevel.Inv.listed_le {c : CacheLevel} (h : c.Inv) (k : Nat) :
    (c.setAt k).lines.length ≤ c.geom.numWays := by
  by_contra hlt
  have hv := (h.valid_iff .l1 k c.geom.numWays).2 (Nat.not_le.1 hlt)
  exact absurd (CacheLevel.lt_numWays_of_valid h.array hv) (Nat.lt_irrefl _)

/-- While a set is not full its cursor is the number of listed ways (R25 item 3). -/
theorem CacheLevel.Inv.cursor_eq {c : CacheLevel} (h : c.Inv) (k : Nat)
    (hlt : (c.setAt k).lines.length < c.geom.numWays) : c.curAt k = (c.setAt k).lines.length :=
  (CacheLevel.fillsInOrder_setAt h.inOrder k).2 hlt

/-- Settles O53: the valid ways are those below the number of listed ones, which is the cursor until the set is full. -/
theorem invariantMeansPrefix : Obligations.InvariantMeansPrefix := by
  intro s l k hs hok
  have h := hs.level l
  generalize s.level l = c at h hok ⊢
  have hcur := h.cursor_lt hok k
  have hle := h.listed_le k
  have heq := h.cursor_eq k
  refine ⟨hcur, ?clean, ?filling, ?full⟩
  case clean =>
    intro w hinv
    by_contra hd
    rw [CacheLevel.valid_of_dirty h.array (by simpa using hd)] at hinv
    cases hinv
  case filling =>
    intro hinv w
    have hnot : ¬ c.curAt k < (c.setAt k).lines.length := by simp [← h.valid_iff l k, hinv]
    rw [h.valid_iff l k, heq (by omega)]
  case full =>
    intro hv w
    have hlt := (h.valid_iff l k _).1 hv
    have hfull : (c.setAt k).lines.length = c.geom.numWays := by
      by_contra hne
      have := heq (by omega)
      omega
    rw [h.valid_iff l k, hfull]

/-- Settles O55: the dirty bit VDIRTY reports is that of the victim slot, and a dirty line is valid. -/
theorem dirtyVictimIsValid : Obligations.DirtyVictimIsValid := by
  intro s a hs hd
  rw [s.l1.vdirty_eq .l1] at hd
  exact CacheLevel.valid_of_dirty hs.l1.array hd

/-- A FILL leaves a valid line valid: it writes a valid line or leaves the line (R81). -/
theorem CacheLevel.valid_fill {c : CacheLevel} {l : LevelId} {k w : Nat} (a : Address)
    (h : (c.lineAt l k w).valid = true) : ((c.fill a).lineAt l k w).valid = true := by
  rw [c.lineAt_fill]
  split
  · rfl
  · exact h

/-- Settles O54: of what an operation can do to a level, only RESET and CONFIGURE empty it. -/
theorem validLinesStayValid : Obligations.ValidLinesStayValid := by
  intro i s t l k w hreset hconf h hv
  have hn : ∀ l b w k, i ≠ .configure l b w k := by
    cases hs : s.constructed with
    | true => exact ne_configure_of_constructed hs h
    | false => exact hconf hs
  exact exec_level h l (fun c => (c.lineAt l k w).valid = true) hv
    (fun _ a _ hc => CacheLevel.valid_fill a hc)
    (fun c a _ hc => (CacheLevel.probeWr_line _ c l a k w).2.1.trans hc)
    (fun hi => absurd hi (hreset _))
    (fun _ _ _ hi => absurd hi (hn _ _ _ _))
    (fun _ _ _ _ hi => absurd hi (hn _ _ _ _))

end Sys2Proof.Machine
end

section
/-! PROOFS. The tags of a set (10_state.md R26, R27): under accesses those of L1 stay pairwise different, and a write-back
makes those of L2 repeat. -/

namespace Sys2Proof.Machine

open Sys2Proof

/-! ### Unique tags -/

theorem CacheLevel.tagsUnique_of_empty {c : CacheLevel} (h : c.sets = []) : c.tagsUnique := by
  intro l k w w' hv _ _
  rw [CacheLevel.lineAt_of_empty h] at hv
  cases hv

/-- A write probe changes no tag and no valid bit, so the tags stay unique. -/
theorem CacheLevel.tagsUnique_probeWr {c : CacheLevel} (mm : MultiMatch) (h : c.tagsUnique) (a : Address) :
    (c.probeWr mm a).tagsUnique := by
  intro l k w w' hv hv' htag
  obtain ⟨et, ev, -⟩ := CacheLevel.probeWr_line mm c l a k w
  obtain ⟨et', ev', -⟩ := CacheLevel.probeWr_line mm c l a k w'
  rw [ev] at hv
  rw [ev'] at hv'
  rw [et, et'] at htag
  exact h l k w w' hv hv' htag

/-- In a level that an address misses, no valid line of the selected set has its tag (R76). -/
theorem CacheLevel.tag_ne_of_miss {c : CacheLevel} (hwf : c.arrayWf = true) {a : Address} (hmiss : c.matchHit a = false)
    {l : LevelId} {w : Nat} (hv : (c.lineAt l (c.selectSet a) w).valid = true) :
    (c.lineAt l (c.selectSet a) w).tag ≠ (c.fieldsOf a).tag := by
  intro htag
  have hhit := (CacheLevel.matchHit_iff hwf l a).2 ⟨w, CacheLevel.lt_numWays_of_valid hwf hv, hv, htag⟩
  rw [hmiss] at hhit
  cases hhit

/-- The line a FILL writes (R81). -/
theorem CacheLevel.lineAt_fill_victim (c : CacheLevel) (l : LevelId) (a : Address) :
    (c.fill a).lineAt l (c.selectSet a) (c.selectVictim a) =
      { tag := (c.fieldsOf a).tag, valid := true, dirty := false } := by
  rw [c.lineAt_fill, if_pos ⟨rfl, rfl⟩]

/-- A FILL leaves every line but that of the victim slot (R81). -/
theorem CacheLevel.lineAt_fill_other (c : CacheLevel) (l : LevelId) {a : Address} {k w : Nat}
    (h : ¬ (k = c.selectSet a ∧ w = c.selectVictim a)) : (c.fill a).lineAt l k w = c.lineAt l k w := by
  rw [c.lineAt_fill, if_neg h]

/-- After a FILL that follows a miss, only the victim slot holds a valid line with the address's tag. -/
theorem CacheLevel.eq_victim_of_fill {c : CacheLevel} (hwf : c.arrayWf = true) {a : Address}
    (hmiss : c.matchHit a = false) {l : LevelId} {w : Nat}
    (hv : ((c.fill a).lineAt l (c.selectSet a) w).valid = true)
    (htag : ((c.fill a).lineAt l (c.selectSet a) w).tag = (c.fieldsOf a).tag) : w = c.selectVictim a := by
  by_contra hne
  rw [c.lineAt_fill_other l fun h => hne h.2] at hv htag
  exact CacheLevel.tag_ne_of_miss hwf hmiss hv htag

/-- A FILL after a miss installs a tag the set does not hold, so the tags stay unique (R26). -/
theorem CacheLevel.tagsUnique_fill {c : CacheLevel} (hwf : c.arrayWf = true) {a : Address}
    (hmiss : c.matchHit a = false) (h : c.tagsUnique) : (c.fill a).tagsUnique := by
  intro l k w w' hv hv' htag
  by_cases hvic : k = c.selectSet a ∧ w = c.selectVictim a
  · obtain ⟨rfl, rfl⟩ := hvic
    rw [c.lineAt_fill_victim] at htag
    exact (CacheLevel.eq_victim_of_fill hwf hmiss hv' htag.symm).symm
  · by_cases hvic' : k = c.selectSet a ∧ w' = c.selectVictim a
    · obtain ⟨rfl, rfl⟩ := hvic'
      rw [c.lineAt_fill_victim] at htag
      exact CacheLevel.eq_victim_of_fill hwf hmiss hv htag
    · rw [c.lineAt_fill_other l hvic] at hv htag
      rw [c.lineAt_fill_other l hvic'] at hv' htag
      exact h l k w w' hv hv' htag

/-! ### L1 under accesses -/

/-- A read fills L1 only after it missed L1, so the tags of L1 stay unique (R89). -/
theorem readAccess_l1_tagsUnique {c1 : CacheLevel} (c2 : CacheLevel) (hwf : c1.arrayWf = true) (h : c1.tagsUnique)
    (a : Address) : (readAccess c1 c2 a).l1.tagsUnique := by
  cases hm : c1.matchHit a with
  | true => rw [readAccess_hit c2 hm]; exact h
  | false => rw [readAccess_miss c2 hm]; exact CacheLevel.tagsUnique_fill hwf hm h

theorem writeAccess_l1_tagsUnique (mm : MultiMatch) {c1 : CacheLevel} (c2 : CacheLevel) (h : c1.tagsUnique)
    (a : Address) : (writeAccess mm c1 c2 a).l1.tagsUnique := by
  cases hm : c1.matchHit a with
  | true => rw [writeAccess_hit mm c2 hm]; exact CacheLevel.tagsUnique_probeWr mm h a
  | false => rw [writeAccess_miss mm c2 hm]; exact h

/-- An access keeps the tags of L1 unique (R26). -/
theorem exec_access_l1_tagsUnique {i : Instr} (hi : i.isAccess = true) {s t : State} (hs : s.Inv)
    (hu : s.l1.tagsUnique) (h : exec i s = .next t) : t.l1.tagsUnique := by
  cases i with
  | read a =>
    obtain ⟨-, rfl⟩ := exec_read_next.1 h
    exact readAccess_l1_tagsUnique _ hs.l1.array hu a
  | write a =>
    obtain ⟨-, rfl⟩ := exec_write_next.1 h
    exact writeAccess_l1_tagsUnique _ _ hu a
  | _ => cases hi

/-- Settles O56, by induction on the accesses: the invariant and the unique tags are kept together. -/
theorem accessesKeepL1TagsUnique : Obligations.AccessesKeepL1TagsUnique := by
  intro s t is hs hu
  replace hu : s.l1.tagsUnique := hu.elim CacheLevel.tagsUnique_of_empty id
  induction is generalizing s with
  | nil =>
    rintro - ⟨⟩
    exact hu
  | cons i is ih =>
    intro hall h
    obtain ⟨u, hi, hrest⟩ := andThen_eq_next h
    have hacc := hall i List.mem_cons_self
    exact ih u (exec_inv hi hs) (exec_access_l1_tagsUnique hacc hs hu hi)
      (fun j hj => hall j (List.mem_cons_of_mem i hj)) hrest

/-! ### The second copy in L2 -/

/-- After a FILL the victim slot matches the address. -/
theorem CacheLevel.matchesAt_fill_victim {c : CacheLevel} (h : c.Inv) (hok : c.cfgOk = true) (l : LevelId)
    (a : Address) : (c.fill a).matchesAt l a (c.selectVictim a) := by
  have hline := c.lineAt_fill_victim l a
  exact ⟨h.cursor_lt hok _, congrArg Line.valid hline, congrArg Line.tag hline⟩

/-- A way that matches an address still matches after a FILL for it that writes another way. -/
theorem CacheLevel.matchesAt_fill_other {c : CacheLevel} {l : LevelId} {a : Address} {w : Nat} (h : c.matchesAt l a w)
    (hne : w ≠ c.selectVictim a) : (c.fill a).matchesAt l a w := by
  obtain ⟨hlt, hv, htag⟩ := h
  have hline := c.lineAt_fill_other l (k := c.selectSet a) fun hvic => hne hvic.2
  exact ⟨hlt, (congrArg Line.valid hline).trans hv, (congrArg Line.tag hline).trans htag⟩

/-- Two ways that match one address have one tag, so the tags are not unique. -/
theorem CacheLevel.not_tagsUnique_of_matchesAt {c : CacheLevel} {l : LevelId} {a : Address} {w w' : Nat}
    (h : c.matchesAt l a w) (h' : c.matchesAt l a w') (hne : w ≠ w') : ¬ c.tagsUnique := by
  obtain ⟨-, hv, htag⟩ := h
  obtain ⟨-, hv', htag'⟩ := h'
  exact fun hu => hne (hu l _ w w' hv hv' (htag.trans htag'.symm))

/-- Settles O57: the write-back is a FILL for an address that a way beside the cursor matches. -/
theorem writeBackInstallsSecondCopy : Obligations.WriteBackInstallsSecondCopy := by
  intro s a w hs hcon hmiss hdirty v c hmatch hne
  obtain ⟨hc, hok⟩ : c.Inv ∧ c.cfgOk = true := by
    have hok := State.cfgOk_of_constructed hcon .l2
    cases hm : s.l2.matchHit a with
    | true => simpa [c, hm] using ⟨hs.l2, hok⟩
    | false => simpa [c, hm] using ⟨hs.l2.fill hok a, hok⟩
  have hl2 : (s.afterAccess (readAccess s.l1 s.l2 a)).l2 = c.fill v := by
    rw [readAccess_miss _ (CacheLevel.matchHit_eq_false hs.l1.array hmiss)]
    exact if_pos hdirty
  have hfirst := CacheLevel.matchesAt_fill_other hmatch hne
  have hsecond := CacheLevel.matchesAt_fill_victim hc hok .l2 v
  refine ⟨_, exec_read_ok hcon a, ?_⟩
  rw [hl2]
  exact ⟨hfirst, hsecond, CacheLevel.not_tagsUnique_of_matchesAt hfirst hsecond hne⟩

end Sys2Proof.Machine
end

section
/-! PROOFS. What no response depends on (10_state.md R24, R28 (c)): the dirty bits of L2 and the draws of the tags of
never-filled lines. Both are forgotten in `State.observed`, and a state and what is observed of it answer alike. -/

namespace Sys2Proof.Machine

open Sys2Proof

/-! ### The values of a sparse array, all changed by one function -/

/-- The array with every value changed by one function, under the same keys. -/
def mapValues {α β : Type} (f : α → β) (m : List (Nat × α)) : List (Nat × β) := m.map fun e => (e.1, f e.2)

theorem mapValues_cons {α β : Type} (f : α → β) (e : Nat × α) (t : List (Nat × α)) :
    mapValues f (e :: t) = (e.1, f e.2) :: mapValues f t := rfl

theorem lookup_mapValues {α β : Type} (f : α → β) (k : Nat) (m : List (Nat × α)) :
    lookup k (mapValues f m) = (lookup k m).map f := by
  induction m with
  | nil => rfl
  | cons e t ih =>
    simp only [mapValues_cons, lookup_cons, ih]
    split <;> rfl

theorem insertKey_mapValues {α β : Type} (f : α → β) (k : Nat) (v : α) (m : List (Nat × α)) :
    insertKey k (f v) (mapValues f m) = mapValues f (insertKey k v m) := by
  induction m with
  | nil => rfl
  | cons e t ih =>
    simp only [mapValues_cons, insertKey, ih]
    split
    · rfl
    · split <;> rfl

theorem eraseKey_mapValues {α β : Type} (f : α → β) (k : Nat) (m : List (Nat × α)) :
    eraseKey k (mapValues f m) = mapValues f (eraseKey k m) :=
  List.filter_map

/-- Changing every value twice by a function that a second time does nothing is changing it once. -/
theorem mapValues_idem {α : Type} {f : α → α} (hf : ∀ v, f (f v) = f v) (m : List (Nat × α)) :
    mapValues f (mapValues f m) = mapValues f m := by
  simp only [mapValues, List.map_map, Function.comp_def, hf]

/-! ### The dirty bits of a level -/

/-- The line with its dirty bit cleared. -/
def Line.clean (ln : Line) : Line := { ln with dirty := false }

theorem CacheSet.forgetDirty_eq (x : CacheSet) : x.forgetDirty = { x with lines := mapValues Line.clean x.lines } := rfl

theorem CacheLevel.forgetDirty_eq (c : CacheLevel) :
    c.forgetDirty = { c with sets := mapValues CacheSet.forgetDirty c.sets } := rfl

/-- Dirtying lines and then clearing every dirty bit is clearing every dirty bit. -/
theorem mapValues_clean_dirtyMatching (mm : MultiMatch) (p : Nat × Line → Bool) (m : List (Nat × Line)) :
    mapValues Line.clean (dirtyMatching mm p m) = mapValues Line.clean m := by
  cases mm with
  | lowest =>
    induction m with
    | nil => rfl
    | cons e t ih =>
      simp only [dirtyMatching, dirtyFirst] at ih ⊢
      split
      · rfl
      · rw [mapValues_cons, mapValues_cons, ih]
  | all =>
    simp only [dirtyMatching, dirtyEvery, mapValues, List.map_map]
    refine List.map_congr_left fun e _ => ?_
    simp only [Function.comp]
    split <;> rfl

@[simp] theorem CacheSet.forgetDirty_cur (x : CacheSet) : x.forgetDirty.cur = x.cur := rfl

@[simp] theorem CacheSet.forgetDirty_forgetDirty (x : CacheSet) : x.forgetDirty.forgetDirty = x.forgetDirty :=
  congrArg (fun lines => { x with lines := lines }) (mapValues_idem (f := Line.clean) (fun _ => rfl) x.lines)

/-- A set reads as an unlisted one exactly when it does without its dirty bits. -/
theorem CacheSet.forgetDirty_eq_fresh (x : CacheSet) : x.forgetDirty = CacheSet.fresh ↔ x = CacheSet.fresh := by
  obtain ⟨lines, cur⟩ := x
  simp [CacheSet.forgetDirty, CacheSet.fresh]

@[simp] theorem CacheLevel.forgetDirty_selectSet (c : CacheLevel) (a : Address) :
    c.forgetDirty.selectSet a = c.selectSet a := rfl

@[simp] theorem CacheLevel.forgetDirty_setAt (c : CacheLevel) (k : Nat) :
    c.forgetDirty.setAt k = (c.setAt k).forgetDirty := by
  rw [CacheLevel.setAt, CacheLevel.setAt, c.forgetDirty_eq, lookup_mapValues]
  cases lookup k c.sets <;> rfl

@[simp] theorem CacheLevel.forgetDirty_selectVictim (c : CacheLevel) (a : Address) :
    c.forgetDirty.selectVictim a = c.selectVictim a := by
  simp [CacheLevel.selectVictim, CacheLevel.curAt]

theorem CacheLevel.forgetDirty_putSet (c : CacheLevel) (k : Nat) (x : CacheSet) :
    (c.putSet k x).forgetDirty = c.forgetDirty.putSet k x.forgetDirty := by
  simp only [CacheLevel.putSet, CacheLevel.forgetDirty_eq, x.forgetDirty_eq_fresh, eraseKey_mapValues,
    insertKey_mapValues]
  split <;> rfl

/-- MATCH sees no dirty bit (R76). -/
@[simp] theorem CacheLevel.forgetDirty_matchHit (c : CacheLevel) (a : Address) :
    c.forgetDirty.matchHit a = c.matchHit a := by
  simp only [CacheLevel.matchHit, c.forgetDirty_selectSet, c.forgetDirty_setAt, CacheSet.forgetDirty_eq, mapValues,
    List.any_map]
  rfl

/-- The set a FILL writes, without its dirty bits. -/
theorem CacheLevel.forgetDirty_filledSet (c : CacheLevel) (a : Address) :
    (c.filledSet a).forgetDirty = c.forgetDirty.filledSet a := by
  rw [CacheLevel.filledSet, CacheLevel.filledSet, c.forgetDirty_selectVictim, c.forgetDirty_selectSet, c.forgetDirty_setAt]
  simp only [CacheSet.forgetDirty_eq, ← insertKey_mapValues]
  rfl

/-- FILL reads no dirty bit (R81). -/
theorem CacheLevel.forgetDirty_fill (c : CacheLevel) (a : Address) : (c.fill a).forgetDirty = c.forgetDirty.fill a := by
  rw [c.fill_eq, c.forgetDirty.fill_eq, c.forgetDirty_putSet, c.forgetDirty_filledSet, c.forgetDirty_selectSet]

/-- Without its dirty bits, a level after a write probe that hits is the level with the selected set listed as it is. -/
theorem CacheLevel.forgetDirty_probeWr_hit (mm : MultiMatch) {c : CacheLevel} {a : Address} (h : c.matchHit a = true) :
    (c.probeWr mm a).forgetDirty = c.forgetDirty.putSet (c.selectSet a) (c.setAt (c.selectSet a)).forgetDirty := by
  rw [CacheLevel.probeWr, if_pos h]
  simp only [c.forgetDirty_putSet, CacheSet.forgetDirty_eq, mapValues_clean_dirtyMatching]

@[simp] theorem CacheLevel.forgetDirty_forgetDirty (c : CacheLevel) : c.forgetDirty.forgetDirty = c.forgetDirty :=
  congrArg (fun sets => { c with sets := sets }) (mapValues_idem CacheSet.forgetDirty_forgetDirty c.sets)

/-- What a write probe does beside dirty bits depends on no dirty bit (R79). -/
theorem CacheLevel.forgetDirty_probeWr (mm : MultiMatch) (c : CacheLevel) (a : Address) :
    (c.forgetDirty.probeWr mm a).forgetDirty = (c.probeWr mm a).forgetDirty := by
  cases h : c.matchHit a with
  | true =>
    have h' : c.forgetDirty.matchHit a = true := c.forgetDirty_matchHit a ▸ h
    rw [CacheLevel.forgetDirty_probeWr_hit mm h, CacheLevel.forgetDirty_probeWr_hit mm h']
    simp
  | false =>
    have h' : c.forgetDirty.matchHit a = false := c.forgetDirty_matchHit a ▸ h
    rw [CacheLevel.probeWr_miss mm h, CacheLevel.probeWr_miss mm h', c.forgetDirty_forgetDirty]

/-! ### The draws of the unspecified tags -/

/-- The level with its counter of resets forgotten, from which the tags of never-filled lines are drawn. -/
def CacheLevel.forgetEpoch (c : CacheLevel) : CacheLevel := { c with epoch := 0 }

@[simp] theorem CacheLevel.forgetEpoch_matchHit (c : CacheLevel) (a : Address) :
    c.forgetEpoch.matchHit a = c.matchHit a := rfl
@[simp] theorem CacheLevel.forgetEpoch_vdirty (c : CacheLevel) (a : Address) :
    c.forgetEpoch.vdirty a = c.vdirty a := rfl
@[simp] theorem CacheLevel.forgetEpoch_forgetEpoch (c : CacheLevel) : c.forgetEpoch.forgetEpoch = c.forgetEpoch := rfl
theorem CacheLevel.forgetDirty_forgetEpoch (c : CacheLevel) : c.forgetEpoch.forgetDirty = c.forgetDirty.forgetEpoch := rfl
theorem CacheLevel.forgetEpoch_fill (c : CacheLevel) (a : Address) : c.forgetEpoch.fill a = (c.fill a).forgetEpoch := rfl

theorem CacheLevel.forgetEpoch_probeWr (mm : MultiMatch) (c : CacheLevel) (a : Address) :
    c.forgetEpoch.probeWr mm a = (c.probeWr mm a).forgetEpoch := by
  rw [CacheLevel.probeWr, CacheLevel.probeWr, c.forgetEpoch_matchHit]
  split <;> rfl

/-- The address of a dirty victim does not depend on the draws: its line was filled (R89 corner case i). -/
theorem CacheLevel.forgetEpoch_vaddr {c : CacheLevel} {a : Address} (l : LevelId) (h : c.vdirty a = true) :
    c.forgetEpoch.vaddr l a = c.vaddr l a := by
  have hlisted := c.lineAt_listed (.inr ((c.vdirty_eq l a).symm.trans h))
  have hlisted' := c.forgetEpoch.lineAt_listed (.inr ((c.forgetEpoch.vdirty_eq l a).symm.trans h))
  have hline : c.forgetEpoch.lineAt l (c.selectSet a) (c.selectVictim a) =
      c.lineAt l (c.selectSet a) (c.selectVictim a) := Option.some.inj (hlisted'.symm.trans hlisted)
  exact congrArg (fun ln => c.geom.composeOf ln.tag (c.selectSet a)) hline

/-! ### What is observed of a state -/

/-- L2 without its dirty bits and without its draws. -/
def CacheLevel.observedL2 (c : CacheLevel) : CacheLevel := c.forgetDirty.forgetEpoch

theorem CacheLevel.observedL2_matchHit (c : CacheLevel) (a : Address) : c.observedL2.matchHit a = c.matchHit a :=
  c.forgetDirty_matchHit a

theorem CacheLevel.observedL2_fill (c : CacheLevel) (a : Address) : c.observedL2.fill a = (c.fill a).observedL2 := by
  rw [CacheLevel.observedL2, CacheLevel.observedL2, c.forgetDirty_fill, CacheLevel.forgetEpoch_fill]

@[simp] theorem CacheLevel.observedL2_observedL2 (c : CacheLevel) : c.observedL2.observedL2 = c.observedL2 := by
  simp only [CacheLevel.observedL2, CacheLevel.forgetDirty_forgetEpoch, c.forgetDirty_forgetDirty,
    CacheLevel.forgetEpoch_forgetEpoch]

theorem CacheLevel.observedL2_probeWr (mm : MultiMatch) (c : CacheLevel) (a : Address) :
    (c.observedL2.probeWr mm a).observedL2 = (c.probeWr mm a).observedL2 := by
  simp only [CacheLevel.observedL2, CacheLevel.forgetEpoch_probeWr, CacheLevel.forgetDirty_forgetEpoch,
    c.forgetDirty_probeWr mm a, CacheLevel.forgetEpoch_forgetEpoch]

/-- The state without the dirty bits of L2 and without the draws of both levels. -/
def State.observed (s : State) : State := { s with l1 := s.l1.forgetEpoch, l2 := s.l2.observedL2 }

@[simp] theorem State.observed_rsp6 (s : State) : s.observed.rsp6 = s.rsp6 := rfl
theorem State.observed_constructed (s : State) : s.observed.constructed = s.constructed := rfl

/-- The result of an access without the dirty bits of L2 and without the draws of both levels. -/
def AccessResult.observed (r : AccessResult) : AccessResult :=
  { r with l1 := r.l1.forgetEpoch, l2 := r.l2.observedL2 }

/-- L2 after a read that misses L1 is filled alike, whatever is forgotten (R89). -/
theorem l2AfterReadMiss_observed (c1 c2 : CacheLevel) (a : Address) :
    l2AfterReadMiss c1.forgetEpoch c2.observedL2 a = (l2AfterReadMiss c1 c2 a).observedL2 := by
  have hstep : (if c2.observedL2.matchHit a then c2.observedL2 else c2.observedL2.fill a) =
      (if c2.matchHit a then c2 else c2.fill a).observedL2 := by
    rw [c2.observedL2_matchHit, c2.observedL2_fill]
    split <;> rfl
  simp only [l2AfterReadMiss, hstep, c1.forgetEpoch_vdirty]
  split
  · next hd => rw [CacheLevel.forgetEpoch_vaddr .l1 hd, CacheLevel.observedL2_fill]
  · rfl

/-- A read of what is observed answers what is observed of the read. -/
theorem readAccess_observed (c1 c2 : CacheLevel) (a : Address) :
    readAccess c1.forgetEpoch c2.observedL2 a = (readAccess c1 c2 a).observed := by
  cases h : c1.matchHit a with
  | true => rw [readAccess_hit c2 h, readAccess_hit (c1 := c1.forgetEpoch) _ h]; rfl
  | false =>
    rw [readAccess_miss c2 h, readAccess_miss (c1 := c1.forgetEpoch) _ h, l2AfterReadMiss_observed,
      c2.observedL2_matchHit, c1.forgetEpoch_fill]
    rfl

/-- A write of what is observed answers the same but for what is not observed. -/
theorem writeAccess_observed (mm : MultiMatch) (c1 c2 : CacheLevel) (a : Address) :
    (writeAccess mm c1.forgetEpoch c2.observedL2 a).observed = (writeAccess mm c1 c2 a).observed := by
  cases h : c1.matchHit a with
  | true =>
    rw [writeAccess_hit mm c2 h, writeAccess_hit mm (c1 := c1.forgetEpoch) _ h, c1.forgetEpoch_probeWr]
    simp [AccessResult.observed]
  | false =>
    rw [writeAccess_miss mm c2 h, writeAccess_miss mm (c1 := c1.forgetEpoch) _ h, c2.observedL2_matchHit]
    simp [AccessResult.observed, c2.observedL2_probeWr]

/-! ### Responses -/

/-- What an access leaves is observed as far as its result is. -/
theorem State.afterAccess_observed (s : State) {r r' : AccessResult} (h : r'.observed = r.observed) :
    (s.observed.afterAccess r').observed = (s.afterAccess r).observed :=
  congrArg (fun q : AccessResult => s.afterAccess q) h

@[simp] theorem AccessResult.observed_observed (r : AccessResult) : r.observed.observed = r.observed := by
  simp [AccessResult.observed]

/-- An access is a meaning of the levels that answers alike on what is observed of them. -/
theorem exec_access {i : Instr} (hi : i.isAccess = true) : ∃ k : CacheLevel → CacheLevel → AccessResult,
    (∀ s, exec i s = s.serve k) ∧
      ∀ c1 c2, (k c1.forgetEpoch c2.observedL2).observed = (k c1 c2).observed := by
  cases i with
  | read a =>
    refine ⟨fun c1 c2 => readAccess c1 c2 a, exec_read a, fun c1 c2 => ?_⟩
    simp only [readAccess_observed, AccessResult.observed_observed]
  | write a => exact ⟨fun c1 c2 => writeAccess _ c1 c2 a, exec_write a, fun c1 c2 => writeAccess_observed _ c1 c2 a⟩
  | _ => cases hi

/-- An access of a constructed block and of what is observed of it leave what is observed alike. -/
theorem exec_access_observed {i : Instr} (hi : i.isAccess = true) {s : State} (hs : s.constructed = true) :
    ∃ t t', exec i s = .next t ∧ exec i s.observed = .next t' ∧ t'.observed = t.observed := by
  obtain ⟨k, hexec, hk⟩ := exec_access hi
  refine ⟨_, _, (hexec s).trans (State.serve_ok k hs), (hexec _).trans (State.serve_ok k hs), ?_⟩
  exact s.afterAccess_observed (hk s.l1 s.l2)

/-- An access of a block that is not constructed is refused (R109, R117). -/
theorem exec_access_refused {i : Instr} (hi : i.isAccess = true) {s : State} (hs : s.constructed = false) :
    exec i s = .refused .blockNotConstructed := by
  obtain ⟨k, hexec, -⟩ := exec_access hi
  rw [hexec, State.serve, hs]
  rfl

/-- A state and what is observed of it answer every sequence of accesses with the same response words. -/
theorem responses_observed {is : List Instr} (hall : ∀ i ∈ is, i.isAccess = true) (s : State) :
    responses is s.observed = responses is s := by
  induction is generalizing s with
  | nil => rfl
  | cons i is ih =>
    have hi := hall i List.mem_cons_self
    have ih := ih fun j hj => hall j (List.mem_cons_of_mem i hj)
    cases hs : s.constructed with
    | true =>
      obtain ⟨t, t', ht, ht', hobs⟩ := exec_access_observed hi hs
      simp only [responses, ht, ht']
      rw [← t'.observed_rsp6, hobs, t.observed_rsp6, ← ih t', hobs, ih t]
    | false =>
      simp only [responses, exec_access_refused hi hs,
        exec_access_refused hi (s.observed_constructed.trans hs)]

/-- Settles O58: of two states that differ in dirty bits of L2 only the same is observed. -/
theorem l2DirtyBitsAreInvisible : Obligations.L2DirtyBitsAreInvisible := by
  intro s t is hst hall
  have hobs : s.observed = t.observed :=
    congrArg (fun u : State => { u with l1 := u.l1.forgetEpoch, l2 := u.l2.forgetEpoch }) hst
  rw [← responses_observed hall s, hobs, responses_observed hall t]

/-- Settles O60: of two states that differ in the draws only the same is observed. -/
theorem unwrittenTagsAreInvisible : Obligations.UnwrittenTagsAreInvisible := by
  intro s n1 n2 is hall
  rw [← responses_observed hall s, ← responses_observed hall]
  rfl

end Sys2Proof.Machine
end

section
/-! PROOFS. What an access finds in the block (20_memory.md): a read leaves its address in L1 (R37), and all addresses of
one block are alike to an access (R32, R35). -/

namespace Sys2Proof.Machine

open Sys2Proof

/-! ### A read after a read -/

/-- A FILL leaves its address in the level (R81). -/
theorem CacheLevel.matchHit_fill {c : CacheLevel} (h : c.Inv) (hok : c.cfgOk = true) (a : Address) :
    (c.fill a).matchHit a = true :=
  (CacheLevel.matchHit_iff (h.fill hok a).array .l1 a).2 ⟨_, CacheLevel.matchesAt_fill_victim h hok .l1 a⟩

/-- A read leaves its address in L1: it hit L1, or it filled L1 (R89). -/
theorem readAccess_l1_matchHit {c1 : CacheLevel} (c2 : CacheLevel) (h : c1.Inv) (hok : c1.cfgOk = true) (a : Address) :
    (readAccess c1 c2 a).l1.matchHit a = true := by
  cases hm : c1.matchHit a with
  | true => rw [readAccess_hit c2 hm]; exact hm
  | false => rw [readAccess_miss c2 hm]; exact CacheLevel.matchHit_fill h hok a

/-- A read that hits L1 changes the result pair alone (R91). -/
theorem exec_read_l1_hit {s : State} {a : Address} (hcon : s.constructed = true) (hit : s.l1.matchHit a = true) :
    exec (.read a) s = .next { s with l1State := .readHit, l2State := .noAction } := by
  rw [exec_read_ok hcon, readAccess_hit s.l2 hit]
  rfl

/-- Settles O43: the first read leaves the address in L1, so the second hits there. -/
theorem repeatedReadHits : Obligations.RepeatedReadHits := by
  intro s t a hs h
  have hsame := exec_sameGeometry (i := .read a) (fun _ _ _ _ => nofun) h
  obtain ⟨hcon, rfl⟩ := exec_read_next.1 h
  exact exec_read_l1_hit (hsame.constructed.trans hcon)
    (readAccess_l1_matchHit s.l2 hs.l1 (State.cfgOk_of_constructed hcon .l1) a)

/-! ### Addresses of one block -/

/-- The level decodes both addresses to one set number and one tag. Their offsets may differ. -/
structure CacheLevel.Alike (c : CacheLevel) (a b : Address) : Prop where
  set : c.selectSet a = c.selectSet b
  tag : (c.fieldsOf a).tag = (c.fieldsOf b).tag

/-- A constructed level decodes the addresses of one block alike (R73). -/
theorem CacheLevel.consistent.alike {c : CacheLevel} (h : c.consistent) (hok : c.cfgOk = true) {a b : Address}
    (hblock : a.toNat / c.cfg.blockSizeBytes = b.toNat / c.cfg.blockSizeBytes) : c.Alike a b := by
  obtain ⟨htag, hset⟩ := (h.sound hok).same_block_iff.2 hblock
  exact ⟨hset, htag⟩

/-! No operation of a level tells such addresses apart (R78 to R82). -/

namespace CacheLevel.Alike

variable {c : CacheLevel} {a b : Address} (h : c.Alike a b)
include h

theorem victim : c.selectVictim a = c.selectVictim b := congrArg c.curAt h.set

theorem matchHit : c.matchHit a = c.matchHit b := by
  unfold CacheLevel.matchHit
  rw [h.set, h.tag]

theorem vdirty : c.vdirty a = c.vdirty b := by
  rw [c.vdirty_eq .l1, c.vdirty_eq .l1, h.set, h.victim]

theorem vaddr (l : LevelId) : c.vaddr l a = c.vaddr l b := by
  unfold CacheLevel.vaddr
  rw [h.set, h.victim]

theorem fill : c.fill a = c.fill b := by
  unfold CacheLevel.fill
  rw [h.set, h.victim, h.tag]

theorem probeWr (mm : MultiMatch) : c.probeWr mm a = c.probeWr mm b := by
  unfold CacheLevel.probeWr
  rw [h.matchHit, h.set, h.tag]

end CacheLevel.Alike

/-- L2 after a read that misses L1 sees no more of the address than both levels decode (R89). -/
theorem l2AfterReadMiss_alike {c1 c2 : CacheLevel} {a b : Address} (h1 : c1.Alike a b) (h2 : c2.Alike a b) :
    l2AfterReadMiss c1 c2 a = l2AfterReadMiss c1 c2 b := by
  unfold l2AfterReadMiss
  rw [h1.vdirty, h1.vaddr, h2.matchHit, h2.fill]

theorem readAccess_alike {c1 c2 : CacheLevel} {a b : Address} (h1 : c1.Alike a b) (h2 : c2.Alike a b) :
    readAccess c1 c2 a = readAccess c1 c2 b := by
  cases hm : c1.matchHit b with
  | true => rw [readAccess_hit c2 hm, readAccess_hit c2 (h1.matchHit.trans hm)]
  | false =>
    rw [readAccess_miss c2 hm, readAccess_miss c2 (h1.matchHit.trans hm), h1.fill, h2.matchHit,
      l2AfterReadMiss_alike h1 h2]

theorem writeAccess_alike (mm : MultiMatch) {c1 c2 : CacheLevel} {a b : Address} (h1 : c1.Alike a b)
    (h2 : c2.Alike a b) : writeAccess mm c1 c2 a = writeAccess mm c1 c2 b := by
  unfold writeAccess
  rw [h1.matchHit, h1.probeWr, h2.matchHit, h2.probeWr]

/-- Settles O49: a constructed level decodes the addresses of one block alike, and without both levels every access is
refused. -/
theorem accessesSeeBlocksOnly : Obligations.AccessesSeeBlocksOnly := by
  intro s a b hc1 hc2 hb1 hb2
  cases hcon : s.constructed with
  | false =>
    have hrefused {i : Instr} (hi : i.isAccess = true) := exec_access_refused hi hcon
    exact ⟨(hrefused rfl).trans (hrefused rfl).symm, (hrefused rfl).trans (hrefused rfl).symm⟩
  | true =>
    have h1 := hc1.alike (State.cfgOk_of_constructed hcon .l1) hb1
    have h2 := hc2.alike (State.cfgOk_of_constructed hcon .l2) hb2
    rw [exec_read_ok hcon, exec_read_ok hcon, exec_write_ok hcon, exec_write_ok hcon, readAccess_alike h1 h2,
      writeAccess_alike _ h1 h2]
    exact ⟨rfl, rfl⟩

end Sys2Proof.Machine
end

section
/-! PROOFS. The encodings (30_encoding.md): the decoder and the encoder undo each other, what the words of each port mean,
and what a response word holds. -/

namespace Sys2Proof.Machine

open Sys2Proof

/-! ### The words of a port, and the words of the encoder -/

/-- The three numbers of CONFIGURE fit their fields (R54). -/
theorem wellFormed_configure (l : LevelId) (b w c : Nat) :
    (Instr.configure l b w c).wellFormed = true ↔ (b < 2 ^ 32 ∧ w < 2 ^ 32) ∧ c < 2 ^ 32 := by
  simp only [Instr.wellFormed, Bool.and_eq_true, fitsField_iff, Config.cfgWidth]

/-- The two operands of COMPOSE fit the inputs of its port (assumption 6). -/
theorem wellFormed_compose (l : LevelId) (tag index : Nat) :
    (Instr.compose l tag index).wellFormed = true ↔ tag < 2 ^ 32 ∧ index < 2 ^ 32 := by
  simp only [Instr.wellFormed, Bool.and_eq_true, fitsField_iff]

/-- A request word that fits its port, from its kind and its address (R48). -/
theorem decode_req_word96 {kind : Nat} (h : kind < 2) (a : Address) :
    decode ⟨.req, word96 kind a.toNat⟩ = decodeReq kind a := by
  have ha := a.isLt
  rw [decode_word96 _ (by omega) ha (by simp only [Port.width]; omega)]
  simp only [bitField_all (width := 1) h, BitVec.ofNat_toNat, BitVec.setWidth_eq]

/-- A command word that fits its port, from its `op` code and its address (R55). -/
theorem decode_uop_word96 (l : LevelId) {op : Nat} (h : op < 8) (a : Address) :
    decode ⟨.uop l, word96 op a.toNat⟩ = decodeUop l op a := by
  have ha := a.isLt
  rw [decode_word96 _ (by omega) ha (by simp only [Port.width]; omega)]
  simp only [bitField_all (width := 3) h, BitVec.ofNat_toNat, BitVec.setWidth_eq]

/-- The codes above 101 are reserved (R55, R59 c). -/
theorem decodeUop_reserved (l : LevelId) {op : Nat} (h : 6 ≤ op) (a : Address) :
    decodeUop l op a = .reject (.reservedOp op) := by
  obtain ⟨n, rfl⟩ := Nat.exists_eq_add_of_le' h
  rfl

/-- Settles O5: each constructor's word is the one its port's law speaks of. -/
theorem encodeThenDecode : Obligations.EncodeThenDecode := by
  intro i hwf
  cases i with
  | read a => exact decode_req_word96 (by decide) a
  | write a => exact decode_req_word96 (by decide) a
  | nop l a => exact decode_uop_word96 l (by decide) a
  | probeRd l a => exact decode_uop_word96 l (by decide) a
  | probeWr l a => exact decode_uop_word96 l (by decide) a
  | vdirty l a => exact decode_uop_word96 l (by decide) a
  | fill l a => exact decode_uop_word96 l (by decide) a
  | vaddr l a => exact decode_uop_word96 l (by decide) a
  | configure l b w c =>
    obtain ⟨⟨hb, hw⟩, hc⟩ := (wellFormed_configure l b w c).1 hwf
    rw [encode, decode_word96 _ (by omega) hc (by simp only [Port.width]; omega)]
    simp only [bitField_high (n := 0) hw, bitField_all hb, bitField_low hw]
  | reset l => rfl
  | decode l a =>
    have ha := a.isLt
    rw [encode, decode_word96 _ (by decide) ha (by simp only [Port.width]; omega)]
    simp only [BitVec.ofNat_toNat, BitVec.setWidth_eq]
  | compose l tag index =>
    obtain ⟨htag, hindex⟩ := (wellFormed_compose l tag index).1 hwf
    rw [encode, decode_word96 _ (by omega) hindex (by simp only [Port.width]; omega)]
    simp only [bitField_all htag]

/-- Every word is a high part above a low part of 32 bits. -/
theorem exists_word96 (w : BitVec 96) : ∃ (hi : Nat) (a : Address), hi < 2 ^ 64 ∧ w = word96 hi a.toNat := by
  have hw := w.isLt
  have ha : (BitVec.ofNat 32 w.toNat).toNat = w.toNat % 2 ^ 32 := BitVec.toNat_ofNat _ _
  refine ⟨w.toNat / 2 ^ 32, BitVec.ofNat 32 w.toNat, by omega, BitVec.eq_of_toNat_eq ?_⟩
  rw [word96_toNat (by omega) (BitVec.isLt _), ha]
  omega

/-- A word that fits its port is the encoder's for a well-formed operation, or has a reserved `op` code (R47, R59 c). -/
theorem encoded_or_reserved {p : Port} {hi : Nat} (a : Address) (h : hi * 2 ^ 32 + a.toNat < 2 ^ p.width) :
    (∃ j : Instr, j.wellFormed = true ∧ encode j = ⟨p, word96 hi a.toNat⟩) ∨
      ∃ l, p = .uop l ∧ 6 ≤ hi ∧ hi < 8 := by
  have ha := a.isLt
  cases p with
  | req =>
    simp only [Port.width] at h
    have hhi : hi < 2 := by omega
    clear h
    match hi with
    | 0 => exact .inl ⟨.read a, rfl, rfl⟩
    | 1 => exact .inl ⟨.write a, rfl, rfl⟩
    | n + 2 => omega
  | uop l =>
    simp only [Port.width] at h
    have hhi : hi < 8 := by omega
    clear h
    match hi with
    | 0 => exact .inl ⟨.nop l a, rfl, rfl⟩
    | 1 => exact .inl ⟨.probeRd l a, rfl, rfl⟩
    | 2 => exact .inl ⟨.probeWr l a, rfl, rfl⟩
    | 3 => exact .inl ⟨.vdirty l a, rfl, rfl⟩
    | 4 => exact .inl ⟨.fill l a, rfl, rfl⟩
    | 5 => exact .inl ⟨.vaddr l a, rfl, rfl⟩
    | n + 6 => exact .inr ⟨l, rfl, by omega, hhi⟩
  | cfg l =>
    simp only [Port.width] at h
    have hwf := (wellFormed_configure l (hi / 2 ^ 32) (hi % 2 ^ 32) a.toNat).2 (by omega)
    exact .inl ⟨_, hwf, by rw [encode, Nat.div_add_mod']⟩
  | rst l =>
    simp only [Port.width] at h
    have hhi : hi = 0 := by omega
    have h0 : a.toNat = 0 := by omega
    exact .inl ⟨.reset l, rfl, by rw [hhi, h0]; rfl⟩
  | dec l =>
    simp only [Port.width] at h
    have hhi : hi = 0 := by omega
    exact .inl ⟨.decode l a, rfl, by rw [hhi]; rfl⟩
  | cmp l =>
    simp only [Port.width] at h
    exact .inl ⟨.compose l hi a.toNat, (wellFormed_compose _ _ _).2 (by omega), rfl⟩

/-- Settles O6: the word is some operation's, and by O5 the decoder reads that operation. -/
theorem decodeThenEncode : Obligations.DecodeThenEncode := by
  rintro ⟨p, w⟩ i hdec
  have hfits := word_lt_of_decode hdec
  obtain ⟨hi, a, h64, rfl⟩ := exists_word96 w
  rw [word96_toNat h64 a.isLt] at hfits
  obtain ⟨j, hwf, henc⟩ | ⟨l, rfl, h6, h8⟩ := encoded_or_reserved a hfits
  · have hj : decode ⟨p, word96 hi a.toNat⟩ = .instr j := henc ▸ encodeThenDecode j hwf
    obtain rfl : j = i := DecodeResult.instr.inj (hj.symm.trans hdec)
    exact ⟨hwf, henc⟩
  · rw [decode_uop_word96 l h8, decodeUop_reserved l h6] at hdec
    cases hdec

/-! ### The words of each port -/

/-- A request word is its kind bit above its address (R48). -/
theorem request_eq_word96 (w : BitVec 33) :
    w.setWidth 96 = word96 (w.getLsbD 32).toNat (w.extractLsb' 0 32).toNat := by
  have hw := w.isLt
  have hk : (w.getLsbD 32).toNat = w.toNat / 2 ^ 32 % 2 := Nat.toNat_testBit _ _
  have ha : (w.extractLsb' 0 32).toNat = w.toNat % 2 ^ 32 := BitVec.extractLsb'_toNat ..
  apply BitVec.eq_of_toNat_eq
  rw [word96_toNat (by omega) (BitVec.isLt _), BitVec.toNat_setWidth, hk, ha]
  omega

/-- Settles O2, by the two values of the kind bit. -/
theorem requestWordDecodes : Obligations.RequestWordDecodes := by
  intro w
  rw [request_eq_word96, decode_req_word96 (Bool.toNat_lt _)]
  cases w.getLsbD 32 <;> rfl

/-- Settles O3: the decoder's own table of the `op` codes. -/
theorem levelCommandWordDecodes : Obligations.LevelCommandWordDecodes := by
  intro l op a
  exact decode_uop_word l op a

/-- Settles O4: the three fields are those of the configuration the word asks for. -/
theorem configurationWordDecodes : Obligations.ConfigurationWordDecodes := by
  intro l b w c
  rw [decode_cfg, cfgOfWord_append]

/-- Settles O1: one word of each format, evaluated. -/
theorem specWordsDecode : Obligations.SpecWordsDecode := by
  unfold Obligations.SpecWordsDecode
  decide

/-- A word that is no operation's is refused (R59 c). -/
theorem runWord_of_reject {pw : PortWord} {e : DecodeError} (h : decode pw = .reject e) (s : State) :
    runWord pw s = .refused (.illegalWord e) := by simp only [runWord, h]

/-- Settles O8: the bench's word runs next, and the decoder rejects it. -/
theorem stepRefusesReservedCodes : Obligations.StepRefusesReservedCodes := by
  intro s l op a rest hbench hop
  have hrej := (decode_uop_word l op a).trans (decodeUop_reserved l hop a)
  rw [step_of_bench hbench, runWord_of_reject hrej]

/-! ### The response word -/

/-- No code is above 4 (R49). -/
theorem stateCode_le (x : AccessState) : stateCode x ≤ 4 := by cases x <;> decide

theorem stateOfCode_stateCode (x : AccessState) : stateOfCode (stateCode x) = some x := by cases x <;> rfl

/-- The two codes fit the response word (R50). -/
theorem rsp6_toNat (x1 x2 : AccessState) : (rsp6 x1 x2).toNat = stateCode x1 * 8 + stateCode x2 := by
  have h1 := stateCode_le x1
  have h2 := stateCode_le x2
  rw [rsp6, BitVec.toNat_ofNat]
  omega

/-- Bits 5:3 of the response word are the code of `L1State` (R50). -/
theorem bitField_rsp6_l1 (x1 x2 : AccessState) : bitField (rsp6 x1 x2).toNat 3 3 = stateCode x1 := by
  have h1 := stateCode_le x1
  have h2 := stateCode_le x2
  rw [rsp6_toNat, bitField]
  omega

/-- Bits 2:0 of the response word are the code of `L2State` (R50). -/
theorem bitField_rsp6_l2 (x1 x2 : AccessState) : bitField (rsp6 x1 x2).toNat 0 3 = stateCode x2 := by
  have h2 := stateCode_le x2
  rw [rsp6_toNat, bitField]
  omega

/-- A consumer reads a legal pair back from its response word (R59 b). -/
theorem consumeRsp6_rsp6 {x1 x2 : AccessState} (h : legalPair x1 x2 = true) :
    consumeRsp6 (rsp6 x1 x2) = .ok (x1, x2) := by
  simp only [consumeRsp6, bitField_rsp6_l1, bitField_rsp6_l2, stateOfCode_stateCode, h, if_true]

/-- The bits of a word taken as a number (R7). -/
theorem toNat_extractLsb'_eq_bitField {n : Nat} (w : BitVec n) (lo width : Nat) :
    (w.extractLsb' lo width).toNat = bitField w.toNat lo width := by
  rw [BitVec.extractLsb'_toNat, Nat.shiftRight_eq_div_pow, bitField]

/-- The results of an access that completes are a pair of R96. -/
theorem exec_access_pair {i : Instr} (hi : i.isAccess = true) {s t : State} (h : exec i s = .next t) :
    legalPair t.l1State t.l2State = true := by
  cases i with
  | read a =>
    obtain ⟨-, rfl⟩ := exec_read_next.1 h
    exact readAccess_pair _ _ _
  | write a =>
    obtain ⟨-, rfl⟩ := exec_write_next.1 h
    exact writeAccess_pair _ _ _ _
  | _ => cases hi

/-- Settles O47: the fields of the word, and the pairs an access leaves. -/
theorem responseWordIsLegal : Obligations.ResponseWordIsLegal := by
  intro i s t hi h
  have h1 : (t.rsp6.extractLsb' 3 3).toNat = stateCode t.l1State :=
    (toNat_extractLsb'_eq_bitField _ _ _).trans (bitField_rsp6_l1 _ _)
  have h2 : (t.rsp6.extractLsb' 0 3).toNat = stateCode t.l2State :=
    (toNat_extractLsb'_eq_bitField _ _ _).trans (bitField_rsp6_l2 _ _)
  exact ⟨h1, h2, h1 ▸ stateCode_le _, h2 ▸ stateCode_le _, consumeRsp6_rsp6 (exec_access_pair hi h)⟩

end Sys2Proof.Machine
end

section
/-! PROOFS. Geometry and the address decoder (40_geometry_decoder.md): what CONFIGURE constructs and which check it
reports, the widths of a valid geometry, and the laws of DECODE and COMPOSE. -/

namespace Sys2Proof.Machine

open Sys2Proof

/-! ### CONFIGURE of a level that does not exist -/

/-- A valid configuration is constructed (R68). -/
theorem exec_configure_valid {l : LevelId} {b w k : Nat} {s : State} (hc : (s.level l).cfgOk = false)
    (hf : l = .l2 → s.l1Failed = false) (hv : validate ⟨b, w, k⟩ = none) :
    exec (.configure l b w k) s = .next (s.constructLevel l ⟨b, w, k⟩) := by
  rw [exec_configure, execConfigure_live b w k hc hf, hv]

/-- A configuration that fails a check raises ConfigError (R66, R102). -/
theorem exec_configure_invalid {l : LevelId} {b w k : Nat} {s : State} {r : ConfigReason}
    (hc : (s.level l).cfgOk = false) (hf : l = .l2 → s.l1Failed = false) (hv : validate ⟨b, w, k⟩ = some r) :
    exec (.configure l b w k) s = .next (s.raiseConfigError l r) := by
  rw [exec_configure, execConfigure_live b w k hc hf, hv]

/-- The level a valid configuration constructs, register by register (R68, R115). -/
theorem CacheLevel.construct_eq {c : CacheLevel} {cfg : CfgIn} {g : Geometry} (h : deriveGeometry cfg = g) :
    c.construct cfg = { cfg := cfg, geom := g, cfgOk := true, sets := [], epoch := c.epoch + 1 } :=
  h ▸ rfl

/-- V4 and V5 pass (R66, `cfgWays >= 1`). -/
theorem validate_two_pow_none {k j m : Nat} (h4 : k + j ≤ m + 10) (h5 : m + 10 - j ≤ 32) :
    validate ⟨2 ^ k, 2 ^ j, 2 ^ m⟩ = none := by
  rw [validate_two_pow, if_neg (Nat.not_lt.2 h4), if_neg (Nat.not_lt.2 h5)]

/-- V4 and V5 pass (R66, `cfgWays = 0`). -/
theorem validate_zero_ways_none {k m : Nat} (h4 : k ≤ m + 10) (h5 : k ≤ 32) : validate ⟨2 ^ k, 0, 2 ^ m⟩ = none := by
  rw [validate_zero_ways, if_neg (Nat.not_lt.2 h4), if_neg (Nat.not_lt.2 h5)]

/-- Settles O12: the configuration is valid, and its geometry is that of `deriveGeometry_two_pow`. -/
theorem configureBuildsSetAssociative : Obligations.ConfigureBuildsSetAssociative := by
  intro s l k j m hc hf h4 h5
  rw [exec_configure_valid hc hf (validate_two_pow_none h4 h5), State.constructLevel,
    CacheLevel.construct_eq (deriveGeometry_two_pow h4)]

/-- Settles O13: the configuration is valid, and its geometry is that of `deriveGeometry_zero_ways`. -/
theorem configureBuildsFullyAssociative : Obligations.ConfigureBuildsFullyAssociative := by
  intro s l k m hc hf h4 h5
  rw [exec_configure_valid hc hf (validate_zero_ways_none h4 h5), State.constructLevel,
    CacheLevel.construct_eq (deriveGeometry_zero_ways h4)]

/-! ### The first check that fails -/

theorem isPow2_eq_false_iff (n : Nat) : isPow2 n = false ↔ ¬ ∃ k, n = 2 ^ k := by
  rw [← Bool.not_eq_true, isPow2_iff]

/-- V1 fails (R66). -/
theorem validate_blockNotPow2 {b : Nat} (w c : Nat) (hb : ¬ ∃ k, b = 2 ^ k) :
    validate ⟨b, w, c⟩ = some .blockNotPow2 := by
  simp [validate, (isPow2_eq_false_iff b).2 hb]

/-- V2 is the first check to fail (R66). -/
theorem validate_capNotPow2 (k w : Nat) {c : Nat} (hc : ¬ ∃ m, c = 2 ^ m) :
    validate ⟨2 ^ k, w, c⟩ = some .capNotPow2 := by
  simp [validate, (isPow2_eq_false_iff c).2 hc]

/-- V3 is the first check to fail (R66). -/
theorem validate_waysNotPow2 (k m : Nat) {w : Nat} (h0 : w ≠ 0) (hw : ¬ ∃ j, w = 2 ^ j) :
    validate ⟨2 ^ k, w, 2 ^ m⟩ = some .waysNotPow2 := by
  simp [validate, h0, (isPow2_eq_false_iff w).2 hw]

/-- Settles O14: one clause for each of V1 to V5, by what `validate` answers, and one for each way to pass them all. -/
theorem configureReportsFirstFailedCheck : Obligations.ConfigureReportsFirstFailedCheck := by
  intro s l b w c hc hf raises
  have fails {r : ConfigReason} (hv : validate ⟨b, w, c⟩ = some r) : raises r := exec_configure_invalid hc hf hv
  have passes (hv : validate ⟨b, w, c⟩ = none) :
      ∃ t, exec (.configure l b w c) s = .next t ∧ t.cfgError = none ∧ (t.level l).cfgOk = true :=
    ⟨_, exec_configure_valid hc hf hv, rfl, by simp⟩
  refine ⟨?v1, ?v2, ?v3, ?v4Zero, ?v4, ?v5Zero, ?v5, ?passZero, ?pass⟩
  case v1 => exact fun hb => fails (validate_blockNotPow2 w c hb)
  case v2 => rintro k rfl hm; exact fails (validate_capNotPow2 k w hm)
  case v3 => rintro k m rfl rfl h0 hj; exact fails (validate_waysNotPow2 k m h0 hj)
  case v4Zero => rintro k m rfl rfl rfl h4; exact fails (by rw [validate_zero_ways, if_pos h4])
  case v4 => rintro k m j rfl rfl rfl h4; exact fails (by rw [validate_two_pow, if_pos h4])
  case v5Zero =>
    rintro k m rfl rfl rfl h4 h5
    exact fails (by rw [validate_zero_ways, if_neg (Nat.not_lt.2 h4), if_pos h5])
  case v5 =>
    rintro k m j rfl rfl rfl h4 h5
    exact fails (by rw [validate_two_pow, if_neg (Nat.not_lt.2 h4), if_pos h5])
  case passZero => rintro k m rfl rfl rfl h4 h5; exact passes (validate_zero_ways_none h4 h5)
  case pass => rintro k m j rfl rfl rfl h4 h5; exact passes (validate_two_pow_none h4 h5)

/-! ### A valid geometry -/

/-- The three widths add up to the address width (R67). -/
theorem Geometry.Sound.widths {g : Geometry} {b : Nat} (hg : g.Sound b) :
    g.offsetBits + g.indexBits + g.tagBits = 32 := by
  rw [hg.tagBits, Nat.add_sub_cancel' hg.offset_le]

/-- Settles O17: the sum is that of a sound geometry, and bounds its three parts. -/
theorem validGeometryWidthsAddUp : Obligations.ValidGeometryWidthsAddUp := by
  intro c hv
  have hsum := (Geometry.sound_of_valid hv).widths
  exact ⟨hsum, by omega, by omega, by omega⟩

/-- Settles O19: one set on exponents is `k + j = m + 10`, with which the two geometries agree register by register. -/
theorem oneSetIsFullyAssociative : Obligations.OneSetIsFullyAssociative := by
  intro b w c hv hw hone
  obtain ⟨k, m, hb, hm, ⟨h0, -⟩ | ⟨j, hj, h4, h5⟩⟩ := (validate_eq_none_iff _).1 hv
  · exact absurd hw (by simp only at h0; omega)
  · simp only at hb hm hj
    subst hb hm hj
    rw [deriveGeometry_two_pow h4] at hone ⊢
    have hexp : m + 10 - k - j = 0 := (Nat.pow_eq_one.1 hone).resolve_left (by decide)
    have hways : m + 10 - k = j := by omega
    have hk : k ≤ m + 10 := by omega
    refine ⟨validate_zero_ways_none hk (by omega), ?_⟩
    rw [deriveGeometry_zero_ways hk, hexp, hways]
    rfl

/-! ### DECODE -/

/-- The three fields in plain arithmetic (R69). -/
theorem Geometry.fieldsOf_eq (g : Geometry) (a : Address) : g.fieldsOf a =
    { tag := a.toNat / 2 ^ (g.offsetBits + g.indexBits) % 2 ^ (32 - (g.offsetBits + g.indexBits))
      index := a.toNat / 2 ^ g.offsetBits % 2 ^ g.indexBits
      offset := a.toNat % 2 ^ g.offsetBits } :=
  congrArg (AddrFields.mk _ _) (fieldsOf_offset g a)

/-- Settles O23: DECODE answers the fields of its level's geometry. -/
theorem decodeExtractsFields : Obligations.DecodeExtractsFields := by
  intro s l a hok g
  rw [← g.fieldsOf_eq]
  exact exec_decode_next.2 ⟨hok, rfl⟩

/-- The address put together from fields in range has these fields (R69). -/
theorem Geometry.Sound.fieldsOf_of_parts {g : Geometry} {b : Nat} (hg : g.Sound b) {a : Address} {t i o : Nat}
    (hi : i < 2 ^ g.indexBits) (ho : o < 2 ^ g.offsetBits)
    (ha : a.toNat = 2 ^ g.offsetBits * (2 ^ g.indexBits * t + i) + o) :
    g.fieldsOf a = { tag := t, index := i, offset := o } := by
  have hblock : a.toNat / 2 ^ g.offsetBits = 2 ^ g.indexBits * t + i := by
    rw [ha, Nat.mul_add_div (two_pow_pos _), Nat.div_eq_of_lt ho, Nat.add_zero]
  have htag : (g.fieldsOf a).tag = t := by
    rw [fieldsOf_tag a hg.offset_le, hblock, Nat.mul_add_div (two_pow_pos _), Nat.div_eq_of_lt hi, Nat.add_zero]
  have hindex : (g.fieldsOf a).index = i := by
    rw [fieldsOf_index, hblock, Nat.mul_add_mod, Nat.mod_eq_of_lt hi]
  have hoffset : (g.fieldsOf a).offset = o := by
    rw [fieldsOf_offset, ha, Nat.mul_add_mod, Nat.mod_eq_of_lt ho]
  rw [← htag, ← hindex, ← hoffset]

/-- A number of `n + m` ones is `n` ones above `m` ones. -/
theorem two_pow_add_sub_one (m n : Nat) : 2 ^ (m + n) - 1 = 2 ^ m * (2 ^ n - 1) + (2 ^ m - 1) := by
  have hle : 2 ^ m ≤ 2 ^ m * 2 ^ n := Nat.le_mul_of_pos_right _ (two_pow_pos n)
  have hm := two_pow_pos m
  rw [Nat.pow_add, Nat.mul_sub, Nat.mul_one]
  omega

/-- The fields of the address of all ones are all ones (R70 d). -/
theorem Geometry.Sound.fieldsOf_allOnes {g : Geometry} {b : Nat} (hg : g.Sound b) : g.fieldsOf 0xFFFFFFFF =
    { tag := 2 ^ g.tagBits - 1, index := 2 ^ g.indexBits - 1, offset := 2 ^ g.offsetBits - 1 } := by
  refine hg.fieldsOf_of_parts (Nat.sub_one_lt (two_pow_ne_zero _)) (Nat.sub_one_lt (two_pow_ne_zero _)) ?_
  calc (0xFFFFFFFF : Address).toNat = 2 ^ (g.offsetBits + (g.indexBits + g.tagBits)) - 1 := by
        rw [← Nat.add_assoc, hg.widths]; rfl
    _ = _ := by rw [two_pow_add_sub_one, two_pow_add_sub_one]

/-- Without tag bits every tag is 0 (R70 c). -/
theorem Geometry.Sound.tag_eq_zero {g : Geometry} {b : Nat} (hg : g.Sound b) (h : g.tagBits = 0) (a : Address) :
    (g.fieldsOf a).tag = 0 :=
  Nat.lt_one_iff.1 (by simpa [h] using hg.tag_lt a)

/-- Without tag bits every valid line of the addressed set matches (R70 c). -/
theorem CacheLevel.matchesAt_of_no_tag {c : CacheLevel} {b : Nat} (hg : c.geom.Sound b) (h : c.geom.tagBits = 0)
    (hwf : c.arrayWf = true) {l : LevelId} {a : Address} {w : Nat} (hw : w < c.geom.numWays)
    (hv : (c.lineAt l (c.selectSet a) w).valid = true) : c.matchesAt l a w := by
  have hline : (c.lineAt l (c.selectSet a) w).tag = 0 :=
    Nat.lt_one_iff.1 (by simpa [h] using CacheLevel.tag_lt hwf l (c.selectSet a) w)
  exact ⟨hw, hv, hline.trans (hg.tag_eq_zero h a).symm⟩

/-- Blocks of one byte hold one address (R70 b). -/
theorem Geometry.Sound.eq_of_no_offset {g : Geometry} {b : Nat} (hg : g.Sound b) (h : g.offsetBits = 0) {x y : Address}
    (htag : (g.fieldsOf x).tag = (g.fieldsOf y).tag) (hindex : (g.fieldsOf x).index = (g.fieldsOf y).index) : x = y := by
  have hblock := hg.same_block_iff.1 ⟨htag, hindex⟩
  rw [hg.block, h, Nat.pow_zero, Nat.div_one, Nat.div_one] at hblock
  exact BitVec.eq_of_toNat_eq hblock

/-- Settles O24: the cases (a) to (e) in order. -/
theorem decodeCornerCases : Obligations.DecodeCornerCases := by
  intro c a b hv g
  have hg : g.Sound c.blockSizeBytes := Geometry.sound_of_valid hv
  refine ⟨?noIndex, ?noOffset, ?noTag, hg.fieldsOf_allOnes, hg.tag_lt a, ?index, ?offset⟩
  case noIndex => intro h; rw [fieldsOf_index, h, Nat.pow_zero, Nat.mod_one]
  case noOffset =>
    intro h
    exact ⟨by rw [fieldsOf_offset, h, Nat.pow_zero, Nat.mod_one], hg.eq_of_no_offset h⟩
  case noTag =>
    intro h
    refine ⟨hg.tag_eq_zero h a, fun l lvl w hgeom hwf hw hvalid => ?_⟩
    rw [← hgeom] at hg h hw
    exact CacheLevel.matchesAt_of_no_tag hg h hwf hw hvalid
  case index => exact hg.numSets ▸ fieldsOf_index_lt g a
  case offset => rw [fieldsOf_offset, hg.block]; exact Nat.mod_lt _ (two_pow_pos _)

/-! ### COMPOSE -/

/-- What COMPOSE answers starts the block of its tag and index (R71). -/
theorem Geometry.Sound.compose_block {g : Geometry} {b : Nat} (hg : g.Sound b) {t i : Nat} (ht : t < 2 ^ g.tagBits)
    (hi : i < 2 ^ g.indexBits) : (g.composeOf t i).toNat = (t * 2 ^ g.indexBits + i) * b := by
  rw [hg.compose_toNat ht hi, hg.block, Nat.pow_add, ← Nat.mul_assoc, Nat.add_mul]

/-- COMPOSE of the tag and index of an address starts its block (R72). -/
theorem Geometry.Sound.compose_fieldsOf {g : Geometry} {b : Nat} (hg : g.Sound b) (a : Address) :
    (g.composeOf (g.fieldsOf a).tag (g.fieldsOf a).index).toNat = a.toNat - a.toNat % b := by
  rw [hg.compose_block (hg.tag_lt a) (fieldsOf_index_lt g a), hg.block_number, Nat.mul_comm]
  exact Nat.eq_sub_of_add_eq (Nat.div_add_mod a.toNat b)

/-- Settles O25: COMPOSE answers `composeOf`, which packs the fields and starts a block. -/
theorem composePacksFields : Obligations.ComposePacksFields := by
  intro s l tag index hok hcons
  have hg := hcons.sound hok
  refine ⟨_, exec_compose_next.2 ⟨hok, rfl⟩, fun ht hi => ⟨hg.compose_toNat ht hi, ?_⟩⟩
  rw [hg.compose_block ht hi]
  exact Nat.dvd_mul_left _ _

/-- Settles O26: the two round trips, and block 0x2000 of L1 (32, 1, 8) seen by L2 (32, 4, 64): tag 1 and index 0 at L1,
tag 0 and index 256 at L2. -/
theorem composeDecodeRoundTrips : Obligations.ComposeDecodeRoundTrips := by
  refine ⟨fun c a hv => ?oneLevel, ?twoLevels⟩
  case oneLevel =>
    have hg := Geometry.sound_of_valid hv
    exact ⟨hg.compose_fieldsOf a, fun t i => hg.fieldsOf_compose⟩
  case twoLevels =>
    exact ⟨Config.resetCfgL1, Config.resetCfgL2, 1, 0, by decide⟩

/-- Settles O27: the law of a sound geometry. -/
theorem sameBlockSameTagAndIndex : Obligations.SameBlockSameTagAndIndex :=
  fun _ _ _ hv => (Geometry.sound_of_valid hv).same_block_iff

end Sys2Proof.Machine
end

section
/-! PROOFS. The operations of one level (41_cache_level.md): what each answers and writes, what none of them does, and
the round-robin law of the cursors (R86). -/

namespace Sys2Proof.Machine

open Sys2Proof

/-! ### The six commands of a level -/

/-- The commands of a level's port, with one address (R55). -/
def levelCommands (l : LevelId) (a : Address) : List Instr :=
  [.nop l a, .probeRd l a, .probeWr l a, .vdirty l a, .fill l a, .vaddr l a]

/-- What the command `i` of the level `l` may make of the level `c`: FILL fills it, and any other command leaves it or
is a write probe of it. -/
def CommandEffect (i : Instr) (l : LevelId) (a : Address) (c c' : CacheLevel) : Prop :=
  ((∀ b, i ≠ .fill l b) ∧ (c' = c ∨ c' = c.probeWr Config.multiMatch a)) ∨ (i = .fill l a ∧ c' = c.fill a)

/-- A command writes its level and its level's reply, nothing else (R87). -/
theorem exec_levelCommand {i : Instr} {s t : State} {l : LevelId} {a : Address} (hi : i ∈ levelCommands l a)
    (h : exec i s = .next t) :
    ∃ c r, t = (s.setLevel l c).setReply l r ∧ CommandEffect i l a (s.level l) c := by
  have replyOnly (r : Reply) (hn : ∀ b, i ≠ .fill l b) :
      ∃ c r', s.setReply l r = (s.setLevel l c).setReply l r' ∧ CommandEffect i l a (s.level l) c :=
    ⟨s.level l, r, by rw [State.setLevel_self], .inl ⟨hn, .inl rfl⟩⟩
  simp only [levelCommands, List.mem_cons, List.not_mem_nil, or_false] at hi
  rcases hi with rfl | rfl | rfl | rfl | rfl | rfl
  · rw [exec_nop_next.1 h]
    exact replyOnly _ nofun
  · obtain ⟨-, rfl⟩ := exec_probeRd_next.1 h
    exact replyOnly _ nofun
  · obtain ⟨-, rfl⟩ := exec_probeWr_next.1 h
    exact ⟨_, _, rfl, .inl ⟨nofun, .inr rfl⟩⟩
  · obtain ⟨-, rfl⟩ := exec_vdirty_next.1 h
    exact replyOnly _ nofun
  · obtain ⟨-, rfl⟩ := exec_fill_next.1 h
    exact ⟨_, _, rfl, .inr ⟨rfl, rfl⟩⟩
  · obtain ⟨-, rfl⟩ := exec_vaddr_next.1 h
    exact replyOnly _ nofun

/-! ### The round-robin law -/

/-- What `n` FILLs of the set `k` leave of an empty level (R86): the cursor has advanced `n` ways, and the ways it was at
are the valid ones. -/
structure CacheLevel.TookFills (c : CacheLevel) (k n : Nat) : Prop where
  cursor : c.curAt k = n % c.geom.numWays
  valid : ∀ l w, (c.lineAt l k w).valid = true ↔ w < min n c.geom.numWays

theorem CacheLevel.tookFills_of_empty {c : CacheLevel} (h : c.sets = []) (k : Nat) : c.TookFills k 0 where
  cursor := by rw [CacheLevel.curAt, CacheLevel.setAt_of_empty h, Nat.zero_mod]; rfl
  valid l w := by rw [CacheLevel.lineAt_of_empty h]; simp [CacheLevel.unwrittenLine]

/-- A write probe is no fill: it moves no cursor and changes no valid bit (R79). -/
theorem CacheLevel.TookFills.probeWr {c : CacheLevel} {k n : Nat} (h : c.TookFills k n) (mm : MultiMatch)
    (a : Address) : (c.probeWr mm a).TookFills k n where
  cursor := by rw [c.curAt_probeWr, c.probeWr_geom, h.cursor]
  valid l w := by rw [(CacheLevel.probeWr_line mm c l a k w).2.1, c.probeWr_geom, h.valid]

/-- A FILL of another set is no fill of this one (R81). -/
theorem CacheLevel.TookFills.fill_other {c : CacheLevel} {k n : Nat} (h : c.TookFills k n) {a : Address}
    (hk : k ≠ c.selectSet a) : (c.fill a).TookFills k n where
  cursor := by rw [c.curAt_fill, if_neg hk, c.fill_geom, h.cursor]
  valid l w := by rw [c.lineAt_fill_other l fun hvic => hk hvic.1, c.fill_geom, h.valid]

/-- A FILL of the set is one more: while the set is not full the cursor is the first invalid way, and once it is full
the way written is valid already (R81, R86). -/
theorem CacheLevel.TookFills.fill_selected {c : CacheLevel} {n : Nat} {a : Address} (hpos : 0 < c.geom.numWays)
    (h : c.TookFills (c.selectSet a) n) : (c.fill a).TookFills (c.selectSet a) (n + 1) where
  cursor := by rw [c.curAt_fill, if_pos rfl, c.fill_geom, h.cursor, Nat.mod_add_mod]
  valid l w := by
    have hvic : c.selectVictim a = n % c.geom.numWays := h.cursor
    have hlt := Nat.mod_lt n hpos
    rw [c.fill_geom]
    by_cases hw : w = c.selectVictim a
    · subst hw
      have hle := Nat.mod_le n c.geom.numWays
      rw [c.lineAt_fill_victim, hvic]
      simp only [true_iff]
      omega
    · rw [c.lineAt_fill_other l fun hv => hw hv.2, h.valid]
      rw [hvic] at hw
      by_cases hn : n < c.geom.numWays
      · rw [Nat.mod_eq_of_lt hn] at hw
        omega
      · omega

/-- The fills of a sequence are those of its first operation and those of the rest. -/
theorem fillsOf_cons (l : LevelId) (g : Geometry) (k : Nat) (i : Instr) (is : List Instr) :
    fillsOf l g k (i :: is) = fillsOf l g k [i] + fillsOf l g k is := by
  cases i <;> simp [fillsOf]

/-- An operation that is no FILL of the level counts for none of its sets. -/
theorem fillsOf_eq_zero {l : LevelId} {i : Instr} (h : ∀ a, i ≠ .fill l a) (g : Geometry) (k : Nat) :
    fillsOf l g k [i] = 0 := by
  cases i with
  | fill l' a =>
    have hl : l' ≠ l := fun e => h a (e ▸ rfl)
    simp [fillsOf, hl]
  | _ => rfl

/-- An operation of one level is one of the six commands, DECODE or COMPOSE (R29). -/
theorem Instr.isLevelOp_cases {i : Instr} (h : i.isLevelOp = true) :
    (∃ l a, i ∈ levelCommands l a) ∨ (∃ l a, i = .decode l a) ∨ ∃ l x y, i = .compose l x y := by
  cases i with
  | nop l a | probeRd l a | probeWr l a | vdirty l a | fill l a | vaddr l a =>
    exact .inl ⟨l, a, by simp [levelCommands]⟩
  | decode l a => exact .inr (.inl ⟨l, a, rfl⟩)
  | compose l x y => exact .inr (.inr ⟨l, x, y, rfl⟩)
  | read | write | configure | reset => cases h

/-- What an operation of a level makes of either level is what some command of that level would. -/
theorem exec_levelOp_level {i : Instr} {s t : State} (hi : i.isLevelOp = true) (h : exec i s = .next t) (l : LevelId) :
    ∃ a, CommandEffect i l a (s.level l) (t.level l) := by
  rcases Instr.isLevelOp_cases hi with ⟨l', a, hmem⟩ | ⟨l', a, rfl⟩ | ⟨l', x, y, rfl⟩
  · obtain ⟨c, r, rfl, heffect⟩ := exec_levelCommand hmem h
    rw [State.setReply_level]
    by_cases hl : l = l'
    · subst hl
      exact ⟨a, by rwa [State.setLevel_level]⟩
    · rw [State.setLevel_level_ne _ _ hl]
      have hn : ∀ b, i ≠ .fill l b := by
        rintro b rfl
        simp [levelCommands, hl] at hmem
      exact ⟨a, .inl ⟨hn, .inl rfl⟩⟩
  · obtain ⟨-, rfl⟩ := exec_decode_next.1 h
    exact ⟨a, .inl ⟨nofun, .inl (by cases l <;> rfl)⟩⟩
  · obtain ⟨-, rfl⟩ := exec_compose_next.1 h
    exact ⟨0, .inl ⟨nofun, .inl (by cases l <;> rfl)⟩⟩

theorem CommandEffect.geom {i : Instr} {l : LevelId} {a : Address} {c c' : CacheLevel} (h : CommandEffect i l a c c') :
    c'.geom = c.geom := by
  rcases h with ⟨-, rfl | rfl⟩ | ⟨-, rfl⟩
  · rfl
  · exact c.probeWr_geom _ a
  · rfl

/-- A command counts as many fills of a set as it makes. -/
theorem CommandEffect.tookFills {i : Instr} {l : LevelId} {a : Address} {c c' : CacheLevel} {k n : Nat}
    (h : CommandEffect i l a c c') (hpos : 0 < c.geom.numWays) (hk : c.TookFills k n) :
    c'.TookFills k (n + fillsOf l c.geom k [i]) := by
  rcases h with ⟨hn, hc⟩ | ⟨rfl, rfl⟩
  · rw [fillsOf_eq_zero hn]
    rcases hc with rfl | rfl
    · exact hk
    · exact hk.probeWr _ a
  · by_cases hset : k = c.selectSet a
    · subst hset
      have hone : fillsOf l c.geom (c.selectSet a) [.fill l a] = 1 := if_pos ⟨rfl, rfl⟩
      rw [hone]
      exact hk.fill_selected hpos
    · have hzero : fillsOf l c.geom k [.fill l a] = 0 := if_neg fun h => hset h.2.symm
      rw [hzero]
      exact hk.fill_other hset

/-- A sequence of operations of the levels counts as many fills of a set as it makes. -/
theorem execAll_tookFills {is : List Instr} {s t : State} {l : LevelId} {k n : Nat}
    (hall : ∀ i ∈ is, i.isLevelOp = true) (hpos : 0 < (s.level l).geom.numWays) (hk : (s.level l).TookFills k n)
    (h : execAll is s = .next t) : (t.level l).geom = (s.level l).geom ∧
      (t.level l).TookFills k (n + fillsOf l (s.level l).geom k is) := by
  induction is generalizing s n with
  | nil =>
    cases h
    exact ⟨rfl, hk⟩
  | cons i is ih =>
    obtain ⟨u, hi, hrest⟩ := andThen_eq_next h
    obtain ⟨a, heffect⟩ := exec_levelOp_level (hall i List.mem_cons_self) hi l
    have hgeom := heffect.geom
    obtain ⟨hgeom', hk'⟩ := ih (fun j hj => hall j (List.mem_cons_of_mem i hj)) (hgeom ▸ hpos)
      (heffect.tookFills hpos hk) hrest
    rw [hgeom] at hgeom' hk'
    rw [fillsOf_cons, ← Nat.add_assoc]
    exact ⟨hgeom', hk'⟩

/-- Settles O37, by induction on the operations: each counts the fills it makes. -/
theorem roundRobinLaw : Obligations.RoundRobinLaw := by
  intro s t l k is hok hcons hempty hall h
  have hpos := (hcons.sound hok).numWays_pos
  obtain ⟨hgeom, hk⟩ := execAll_tookFills hall hpos (CacheLevel.tookFills_of_empty hempty k) h
  rw [Nat.zero_add] at hk
  exact ⟨hgeom ▸ hk.cursor, fun w => hgeom ▸ hk.valid l w⟩

/-! ### What a command of a level never does -/

theorem CacheLevel.sameRegisters_probeWr (mm : MultiMatch) (c : CacheLevel) (a : Address) :
    c.sameRegisters (c.probeWr mm a) :=
  ⟨c.probeWr_cfg mm a, c.probeWr_geom mm a, c.probeWr_cfgOk mm a, c.probeWr_epoch mm a⟩

theorem CacheLevel.sameRegisters_fill (c : CacheLevel) (a : Address) : c.sameRegisters (c.fill a) :=
  ⟨rfl, rfl, rfl, rfl⟩

theorem CommandEffect.sameRegisters {i : Instr} {l : LevelId} {a : Address} {c c' : CacheLevel}
    (h : CommandEffect i l a c c') : c.sameRegisters c' := by
  rcases h with ⟨-, rfl | rfl⟩ | ⟨-, rfl⟩
  · exact ⟨rfl, rfl, rfl, rfl⟩
  · exact c.sameRegisters_probeWr _ a
  · exact c.sameRegisters_fill a

/-- A command touches the selected set only (R87). -/
theorem CommandEffect.setAt_ne {i : Instr} {l : LevelId} {a : Address} {c c' : CacheLevel} {k : Nat}
    (h : CommandEffect i l a c c') (hk : k ≠ c.selectSet a) : c'.setAt k = c.setAt k := by
  rcases h with ⟨-, rfl | rfl⟩ | ⟨-, rfl⟩
  · rfl
  · exact c.setAt_probeWr_ne _ a hk
  · exact c.setAt_fill_ne a hk

/-- A command invalidates no line (R87). -/
theorem CommandEffect.valid {i : Instr} {l l' : LevelId} {a : Address} {c c' : CacheLevel} {k w : Nat}
    (h : CommandEffect i l a c c') (hv : (c.lineAt l' k w).valid = true) : (c'.lineAt l' k w).valid = true := by
  rcases h with ⟨-, rfl | rfl⟩ | ⟨-, rfl⟩
  · exact hv
  · exact (CacheLevel.probeWr_line _ c l' a k w).2.1.trans hv
  · exact CacheLevel.valid_fill a hv

/-- No command but FILL moves a cursor (R87). -/
theorem CommandEffect.curAt {i : Instr} {l : LevelId} {a : Address} {c c' : CacheLevel} (h : CommandEffect i l a c c')
    (hi : i ≠ .fill l a) (k : Nat) : c'.curAt k = c.curAt k := by
  rcases h with ⟨-, rfl | rfl⟩ | ⟨rfl, -⟩
  · rfl
  · exact c.curAt_probeWr _ a k
  · exact absurd rfl hi

/-- A command keeps the tag, the valid bit and a set dirty bit of every line but the one FILL overwrites (R87). -/
theorem CommandEffect.line {i : Instr} {l l' : LevelId} {a : Address} {c c' : CacheLevel} {k w : Nat}
    (h : CommandEffect i l a c c') (hnot : ¬ (i = .fill l a ∧ k = c.selectSet a ∧ w = c.curAt k)) :
    (c'.lineAt l' k w).tag = (c.lineAt l' k w).tag ∧ (c'.lineAt l' k w).valid = (c.lineAt l' k w).valid ∧
      ((c.lineAt l' k w).dirty = true → (c'.lineAt l' k w).dirty = true) := by
  rcases h with ⟨-, rfl | rfl⟩ | ⟨rfl, rfl⟩
  · exact ⟨rfl, rfl, id⟩
  · exact CacheLevel.probeWr_line _ c l' a k w
  · have hother : ¬ (k = c.selectSet a ∧ w = c.selectVictim a) := by
      rintro ⟨rfl, rfl⟩
      exact hnot ⟨rfl, rfl, rfl⟩
    rw [c.lineAt_fill_other l' hother]
    exact ⟨rfl, rfl, id⟩

/-- Settles O35: a command writes its level and its level's reply, and the level as `CommandEffect` says. -/
theorem levelOperationsStayInTheirSet : Obligations.LevelOperationsStayInTheirSet := by
  intro s t l l' a i hi h
  obtain ⟨c, r, rfl, heffect⟩ := exec_levelCommand hi h
  refine ⟨fun hl => ⟨?otherLevel, ?otherReply⟩, ?_⟩
  case otherLevel => rw [State.setReply_level, State.setLevel_level_ne _ _ hl]
  case otherReply => rw [State.setReply_reply_ne _ _ hl, State.setLevel_reply]
  rw [State.setReply_level, State.setLevel_level]
  exact ⟨heffect.sameRegisters, fun _ hk => heffect.setAt_ne hk, by simp,
    fun k w => ⟨heffect.valid, fun hn => heffect.curAt hn k, heffect.line⟩⟩

/-! ### What each command answers and writes -/

/-- Settles O28: NOP answers without looking at the level. -/
theorem nopWritesNothing : Obligations.NopWritesNothing :=
  fun _ l a => ⟨decode_uop_word l 0#3 a, exec_nop_next.2 rfl⟩

/-- Settles O34: the level's existence is all that any of the six asks for. -/
theorem levelOperationsAreTotal : Obligations.LevelOperationsAreTotal := by
  intro s l a hok
  simp only [List.forall_mem_cons]
  exact ⟨⟨_, exec_nop_next.2 rfl⟩, ⟨_, exec_probeRd_next.2 ⟨hok, rfl⟩⟩, ⟨_, exec_probeWr_next.2 ⟨hok, rfl⟩⟩,
    ⟨_, exec_vdirty_next.2 ⟨hok, rfl⟩⟩, ⟨_, exec_fill_next.2 ⟨hok, rfl⟩⟩, ⟨_, exec_vaddr_next.2 ⟨hok, rfl⟩⟩, nofun⟩

/-- Settles O29: the flag is `hit` of MATCH, which in canonical form says that some way matches. -/
theorem probeRdReportsHit : Obligations.ProbeRdReportsHit := fun s l a hok hwf =>
  ⟨decode_uop_word l 1#3 a, (s.level l).matchHit a, exec_probeRd_next.2 ⟨hok, rfl⟩, CacheLevel.matchHit_iff hwf l a⟩

/-- Settles O30: a hit dirties the lowest matching way (D10), a miss leaves the level. -/
theorem probeWrDirtiesLowestMatch : Obligations.ProbeWrDirtiesLowestMatch := by
  intro s l a hok hwf
  have hexec := exec_probeWr_next (a := a).2 ⟨hok, rfl⟩
  refine ⟨decode_uop_word l 2#3 a, fun w hmatch hlow => ?hit, fun hmiss => ?miss⟩
  case hit =>
    rw [(CacheLevel.matchHit_iff hwf l a).2 ⟨w, hmatch⟩] at hexec
    exact ⟨_, hexec, CacheLevel.sameRegisters_probeWr _ _ a, CacheLevel.curAt_probeWr _ _ a,
      CacheLevel.lineAt_probeWr_lowest hwf hmatch hlow⟩
  case miss =>
    have hfalse := CacheLevel.matchHit_eq_false hwf hmiss
    rw [hfalse, CacheLevel.probeWr_miss _ hfalse, State.setLevel_self] at hexec
    exact hexec

/-- Settles O31: in canonical form only a valid line is dirty. -/
theorem vdirtyReportsVictimSlot : Obligations.VdirtyReportsVictimSlot := by
  intro s l a hok k victim
  refine ⟨decode_uop_word l 3#3 a, ?reply, fun hwf hinvalid => ?invalid⟩
  case reply =>
    have hflag : (s.level l).vdirty a = victim.dirty := (s.level l).vdirty_eq l a
    rw [← hflag]
    exact exec_vdirty_next.2 ⟨hok, rfl⟩
  case invalid =>
    by_contra hdirty
    rw [CacheLevel.valid_of_dirty hwf (by simpa using hdirty)] at hinvalid
    cases hinvalid

/-- Settles O32: the laws of FILL's lines and cursors. -/
theorem fillInstallsAtCursor : Obligations.FillInstallsAtCursor := by
  intro s l a hok c k
  refine ⟨decode_uop_word l 4#3 a, c.fill a, exec_fill_next.2 ⟨hok, rfl⟩, c.sameRegisters_fill a, c.lineAt_fill l a, ?_⟩
  intro k'
  have hcur := c.curAt_fill a k'
  by_cases hk : k' = k
  · rw [if_pos hk, ← hk]
    exact hcur.trans (if_pos hk)
  · rw [if_neg hk]
    exact hcur.trans (if_neg hk)

/-- Settles O33: under the invariant every tag, a never-filled line's too, fits its field, so COMPOSE packs it. -/
theorem vaddrReconstructsVictim : Obligations.VaddrReconstructsVictim := by
  intro s l a hok hinv c k
  have hg := CacheLevel.consistent.sound hinv.consistent hok
  have htag := CacheLevel.tag_lt hinv.array l k (c.curAt k)
  have hindex : k < 2 ^ c.geom.indexBits := fieldsOf_index_lt c.geom a
  have hfields : c.fieldsOf (c.vaddr l a) = ⟨(c.lineAt l k (c.curAt k)).tag, k, 0⟩ := hg.fieldsOf_compose htag hindex
  exact ⟨decode_uop_word l 5#3 a, c.vaddr l a, exec_vaddr_next.2 ⟨hok, rfl⟩, by rw [hfields], by rw [hfields],
    fun _ => hg.compose_toNat htag hindex⟩

/-- With one way the line a write probe hits is the victim slot, and the probe dirties it (R79, C5). -/
theorem CacheLevel.vdirty_probeWr_of_one_way {c : CacheLevel} (hwf : c.arrayWf = true) (hone : c.geom.numWays = 1)
    {l : LevelId} {a : Address} (hit : c.isHit l a) : (c.probeWr Config.multiMatch a).vdirty a = true := by
  obtain ⟨w, hmatch⟩ := hit
  obtain rfl : w = 0 := by
    obtain ⟨hlt, -, -⟩ := hmatch
    omega
  have hset : (c.probeWr Config.multiMatch a).selectSet a = c.selectSet a := by
    simp only [CacheLevel.selectSet, CacheLevel.fieldsOf, c.probeWr_geom]
  have hvic : (c.probeWr Config.multiMatch a).selectVictim a = 0 := by
    have hcur := ((CacheSet.wf_iff _ _).1 (c.wf_setAt hwf (by omega) (c.selectSet a))).2.2
    rw [CacheLevel.selectVictim, hset, c.curAt_probeWr, CacheLevel.curAt]
    omega
  have hline := CacheLevel.lineAt_probeWr_lowest hwf hmatch (fun _ h => absurd h (Nat.not_lt_zero _)) (c.selectSet a) 0
  rw [if_pos ⟨rfl, rfl⟩] at hline
  rw [CacheLevel.vdirty_eq _ l, hset, hvic]
  exact congrArg Line.dirty hline

/-- Settles O36: the probe leaves the victim slot dirty, and VDIRTY reports it. -/
theorem directMappedWriteHitIsVictimDirty : Obligations.DirectMappedWriteHitIsVictimDirty := by
  intro s l a hok hwf hone hit
  have hprobe := exec_probeWr_next (a := a).2 ⟨hok, rfl⟩
  generalize hu : (s.setLevel l _).setReply l _ = u at hprobe
  have hlevel : u.level l = (s.level l).probeWr Config.multiMatch a := by simp [← hu]
  have hvdirty := exec_vdirty_next (s := u) (l := l) (a := a).2 ⟨by rw [hlevel, CacheLevel.probeWr_cfgOk, hok], rfl⟩
  rw [hlevel, CacheLevel.vdirty_probeWr_of_one_way hwf hone hit] at hvdirty
  have hrun : execAll [.probeWr l a, .vdirty l a] s = .next (u.setReply l (Reply.ofFlag true)) := by
    simp only [execAll, hprobe, hvdirty, andThen_next]
  exact ⟨_, hrun, by rw [State.setReply_reply]; rfl⟩

/-! ### The copies a write probe dirties -/

theorem dirtyEvery_cons (p : Nat × Line → Bool) (e : Nat × Line) (t : List (Nat × Line)) :
    dirtyEvery p (e :: t) = (if p e then (e.1, { e.2 with dirty := true }) else e) :: dirtyEvery p t := rfl

/-- In a set where `p` holds of one listed line at most, dirtying the first such line and dirtying every one are the
same (R84). -/
theorem dirtyEvery_eq_dirtyFirst {p : Nat × Line → Bool} {m : List (Nat × Line)} (hr : keysRising m = true)
    (hone : ∀ e ∈ m, ∀ e' ∈ m, p e = true → p e' = true → e.1 = e'.1) : dirtyEvery p m = dirtyFirst p m := by
  induction m with
  | nil => rfl
  | cons e t ih =>
    obtain ⟨hall, ht⟩ := (keysRising_cons e t).1 hr
    have hhead := List.mem_cons_self (a := e) (l := t)
    have htail {x} : x ∈ t → x ∈ e :: t := List.mem_cons_of_mem e
    rw [dirtyEvery_cons, dirtyFirst]
    by_cases hp : p e = true
    · have hrest : dirtyEvery p t = t := by
        refine (List.map_congr_left fun x hx => if_neg fun hpx => ?_).trans (List.map_id t)
        have hlt := hall x hx
        have heq := hone e hhead x (htail hx) hp hpx
        omega
      rw [if_pos hp, if_pos hp, hrest]
    · rw [if_neg hp, if_neg hp, ih ht fun x hx y hy => hone x (htail hx) y (htail hy)]

/-- With unique tags at most one way matches, so a write probe does not depend on `MULTI_MATCH` (R84). -/
theorem CacheLevel.probeWr_all_eq_lowest {c : CacheLevel} (hwf : c.arrayWf = true) (hu : c.tagsUnique) (a : Address) :
    c.probeWr .all a = c.probeWr .lowest a := by
  have hmatch {e : Nat × Line} (he : e ∈ (c.setAt (c.selectSet a)).lines)
      (hp : matchEntry c.geom.numWays (c.fieldsOf a).tag e = true) : c.matchesAt .l1 a e.1 :=
    (CacheLevel.matchesAt_iff hwf .l1 a e.1).2 ⟨e.2, he, hp⟩
  have hsame : dirtyEvery (matchEntry c.geom.numWays (c.fieldsOf a).tag) (c.setAt (c.selectSet a)).lines =
      dirtyFirst (matchEntry c.geom.numWays (c.fieldsOf a).tag) (c.setAt (c.selectSet a)).lines :=
    dirtyEvery_eq_dirtyFirst (c.keysRising_setAt hwf _) fun e he e' he' hp hp' => by
      by_contra hne
      exact CacheLevel.not_tagsUnique_of_matchesAt (hmatch he hp) (hmatch he' hp') hne hu
  simp only [CacheLevel.probeWr, dirtyMatching, hsame]

/-- Beside dirty bits no write probe depends on `MULTI_MATCH` (R84). -/
theorem CacheLevel.probeWr_forgetDirty_eq (mm mm' : MultiMatch) (c : CacheLevel) (a : Address) :
    (c.probeWr mm a).forgetDirty = (c.probeWr mm' a).forgetDirty := by
  cases hm : c.matchHit a with
  | true => rw [CacheLevel.forgetDirty_probeWr_hit mm hm, CacheLevel.forgetDirty_probeWr_hit mm' hm]
  | false => rw [CacheLevel.probeWr_miss mm hm, CacheLevel.probeWr_miss mm' hm]

/-- Settles O59: a write that hits L1 probes L1, where the copy is the only one, and one that misses L1 probes L2. -/
theorem multiMatchIsInvisible : Obligations.MultiMatchIsInvisible := by
  intro c1 c2 a hwf hu
  cases hm : c1.matchHit a with
  | true =>
    rw [writeAccess_hit .all c2 hm, writeAccess_hit .lowest c2 hm]
    exact ⟨rfl, rfl, CacheLevel.probeWr_all_eq_lowest hwf hu a, rfl⟩
  | false =>
    rw [writeAccess_miss .all c2 hm, writeAccess_miss .lowest c2 hm]
    exact ⟨rfl, rfl, rfl, c2.probeWr_forgetDirty_eq .all .lowest a⟩

end Sys2Proof.Machine
end

section
/-! PROOFS. The hierarchy controller (42_hierarchy_controller.md): what READ and WRITE do, by what they find in the two
levels (R89 to R91, R95, R96), that each is its sequence of level operations (R92), and that a legal run never stops
(R99, R100). -/

namespace Sys2Proof.Machine

open Sys2Proof

/-! ### What an access leaves, by what it finds -/

/-- A read that misses L1 fills L1, and L2 as `l2AfterReadMiss` says (R89). -/
theorem exec_read_l1_miss {s : State} {a : Address} (hcon : s.constructed = true) (hmiss : s.l1.matchHit a = false) :
    exec (.read a) s = .next { s with
      l1 := s.l1.fill a
      l2 := l2AfterReadMiss s.l1 s.l2 a
      l1State := .readMiss
      l2State := if s.l2.matchHit a then .readHit else .readMiss } := by
  rw [exec_read_ok hcon, readAccess_miss s.l2 hmiss]
  rfl

/-- A write that hits L1 probes L1 alone (R90 step 1, R91). -/
theorem exec_write_l1_hit {s : State} {a : Address} (hcon : s.constructed = true) (hit : s.l1.matchHit a = true) :
    exec (.write a) s = .next { s with
      l1 := s.l1.probeWr Config.multiMatch a
      l1State := .writeHit
      l2State := .noAction } := by
  rw [exec_write_ok hcon, writeAccess_hit _ s.l2 hit]
  rfl

/-- A write that misses L1 probes L2 and leaves L1 (R90 step 1a). -/
theorem exec_write_l1_miss {s : State} {a : Address} (hcon : s.constructed = true) (hmiss : s.l1.matchHit a = false) :
    exec (.write a) s = .next { s with
      l2 := s.l2.probeWr Config.multiMatch a
      l1State := .writeMiss
      l2State := if s.l2.matchHit a then .writeHit else .writeMiss } := by
  rw [exec_write_ok hcon, writeAccess_miss _ s.l2 hmiss]
  rfl

/-- A write that misses L1 and hits L2 changes L2 alone (R90 step 1a). -/
theorem exec_write_l2_hit {s : State} {a : Address} (hcon : s.constructed = true) (hmiss : s.l1.matchHit a = false)
    (hit : s.l2.matchHit a = true) : exec (.write a) s = .next { s with
      l2 := s.l2.probeWr Config.multiMatch a
      l1State := .writeMiss
      l2State := .writeHit } := by
  rw [exec_write_l1_miss hcon hmiss, hit]
  rfl

/-- A write that misses both levels changes the result pair alone (R90 step 1b, R95). -/
theorem exec_write_both_miss {s : State} {a : Address} (hcon : s.constructed = true) (hmiss : s.l1.matchHit a = false)
    (hmiss2 : s.l2.matchHit a = false) :
    exec (.write a) s = .next { s with l1State := .writeMiss, l2State := .writeMiss } := by
  rw [exec_write_l1_miss hcon hmiss, CacheLevel.probeWr_miss _ hmiss2, hmiss2]
  rfl

/-- A write leaves each level as it is or probes it (R90). -/
theorem exec_write_level {s t : State} {a : Address} (h : exec (.write a) s = .next t) (l : LevelId) :
    t.level l = s.level l ∨ t.level l = (s.level l).probeWr Config.multiMatch a := by
  obtain ⟨-, rfl⟩ := exec_write_next.1 h
  cases hm : s.l1.matchHit a with
  | true =>
    rw [writeAccess_hit _ s.l2 hm]
    cases l
    exacts [.inr rfl, .inl rfl]
  | false =>
    rw [writeAccess_miss _ s.l2 hm]
    cases l
    exacts [.inl rfl, .inr rfl]

/-- Settles O38: a read hit changes the result pair alone, and a write hit L1 beside it. -/
theorem l1HitShortCircuits : Obligations.L1HitShortCircuits := by
  intro s a hcon hwf hit
  have hm := (CacheLevel.matchHit_iff hwf .l1 a).2 hit
  exact ⟨exec_read_l1_hit hcon hm, _, exec_write_l1_hit hcon hm⟩

/-- Settles O39: the fills of L2 after an L1 miss, by L2's hit and the victim's dirty bit. -/
theorem readFillsAndWritesBack : Obligations.ReadFillsAndWritesBack := by
  intro s a hcon hwf1 hwf2
  have hit1 := (CacheLevel.matchHit_iff hwf1 .l1 a).2
  have hit2 := (CacheLevel.matchHit_iff hwf2 .l2 a).2
  have miss1 := fun h => exec_read_l1_miss hcon (CacheLevel.matchHit_eq_false hwf1 (l := .l1) (a := a) h)
  have miss2 := CacheLevel.matchHit_eq_false hwf2 (l := .l2) (a := a)
  unfold l2AfterReadMiss at miss1
  refine ⟨fun h1 => exec_read_l1_hit hcon (hit1 h1), ?hitClean, ?hitDirty, ?missClean, ?missDirty⟩
  case hitClean => intro h1 h2 hd; rw [miss1 h1, hit2 h2, hd]; rfl
  case hitDirty => intro h1 h2 hd; rw [miss1 h1, hit2 h2, hd]; rfl
  case missClean => intro h1 h2 hd; rw [miss1 h1, miss2 h2, hd]; rfl
  case missDirty => intro h1 h2 hd; rw [miss1 h1, miss2 h2, hd]; rfl

/-- Settles O40: the write probe of L1 dirties the lowest matching way (D10). -/
theorem writeHitDirtiesL1 : Obligations.WriteHitDirtiesL1 := by
  intro s a w hcon hwf hmatch hlow
  have hm := (CacheLevel.matchHit_iff hwf .l1 a).2 ⟨w, hmatch⟩
  exact ⟨_, exec_write_l1_hit hcon hm, CacheLevel.sameRegisters_probeWr _ _ a, CacheLevel.curAt_probeWr _ _ a,
    CacheLevel.lineAt_probeWr_lowest hwf hmatch hlow⟩

/-- Settles O41: the write probe of L2 dirties the lowest matching way (D10). -/
theorem writeMissDirtiesL2 : Obligations.WriteMissDirtiesL2 := by
  intro s a w hcon hwf1 hwf2 hmiss hmatch hlow
  have hm := (CacheLevel.matchHit_iff hwf2 .l2 a).2 ⟨w, hmatch⟩
  exact ⟨_, exec_write_l2_hit hcon (CacheLevel.matchHit_eq_false hwf1 hmiss) hm,
    CacheLevel.sameRegisters_probeWr _ _ a, CacheLevel.curAt_probeWr _ _ a,
    CacheLevel.lineAt_probeWr_lowest hwf2 hmatch hlow⟩

/-- An operation that answers the state it starts from may be repeated. -/
theorem execAll_replicate_of_fixed {i : Instr} {s : State} (h : exec i s = .next s) (n : Nat) :
    execAll (List.replicate n i) s = .next s := by
  induction n with
  | zero => rfl
  | succ n ih => rw [List.replicate_succ, execAll, h, andThen_next, ih]

/-- Settles O42: the first write sets the result pair, and a further one sets it to what it is. -/
theorem writeMissInstallsNothing : Obligations.WriteMissInstallsNothing := by
  intro s a n hcon hwf1 hwf2 hmiss1 hmiss2
  have hm1 := CacheLevel.matchHit_eq_false hwf1 hmiss1
  have hm2 := CacheLevel.matchHit_eq_false hwf2 hmiss2
  rw [List.replicate_succ, execAll, exec_write_both_miss hcon hm1 hm2, andThen_next]
  exact execAll_replicate_of_fixed
    (exec_write_both_miss (s := { s with l1State := .writeMiss, l2State := .writeMiss }) hcon hm1 hm2) n

/-- Settles O46: the rows of R96, by hit or miss at each level. -/
theorem resultPairsAndLines : Obligations.ResultPairsAndLines := by
  intro s a hcon hwf1 hwf2 answers
  have hit1 := (CacheLevel.matchHit_iff hwf1 .l1 a).2
  have hit2 := (CacheLevel.matchHit_iff hwf2 .l2 a).2
  have miss1 := CacheLevel.matchHit_eq_false hwf1 (l := .l1) (a := a)
  have miss2 := CacheLevel.matchHit_eq_false hwf2 (l := .l2) (a := a)
  refine ⟨?readHit, ?readMissHit, ?readMissMiss, ?writeHit, ?writeMissHit, ?writeMissMiss⟩
  case readHit => exact fun h1 => ⟨_, exec_read_l1_hit hcon (hit1 h1), rfl, rfl, rfl⟩
  case readMissHit =>
    intro h1 h2
    have h := exec_read_l1_miss hcon (miss1 h1)
    rw [hit2 h2] at h
    exact ⟨_, h, rfl, rfl, rfl⟩
  case readMissMiss =>
    intro h1 h2
    have h := exec_read_l1_miss hcon (miss1 h1)
    rw [miss2 h2] at h
    exact ⟨_, h, rfl, rfl, rfl⟩
  case writeHit => exact fun h1 => ⟨_, exec_write_l1_hit hcon (hit1 h1), rfl, rfl, rfl⟩
  case writeMissHit => exact fun h1 h2 => ⟨_, exec_write_l2_hit hcon (miss1 h1) (hit2 h2), rfl, rfl, rfl⟩
  case writeMissMiss => exact fun h1 h2 => ⟨_, exec_write_both_miss hcon (miss1 h1) (miss2 h2), rfl, rfl, rfl⟩

/-- Settles O48: a write probe changes no cursor, tag or valid bit and clears no dirty bit. -/
theorem writeNeverAllocates : Obligations.WriteNeverAllocates := by
  intro s t a l k w h
  rcases exec_write_level h l with hl | hl
  · rw [hl]; exact ⟨rfl, rfl, rfl, id⟩
  · rw [hl]; exact ⟨CacheLevel.curAt_probeWr _ _ a k, CacheLevel.probeWr_line _ _ l a k w⟩

/-! ### The accesses as sequences of level operations -/

/-- The state between two operations of an access: `s` but for L2 and the replies, which are internal to the access. -/
def State.midAccess (s : State) (c2 : CacheLevel) (r1 r2 : Reply) : State :=
  { s with l2 := c2, l1Reply := r1, l2Reply := r2 }

@[simp] theorem State.midAccess_l1Reply (s : State) (c2 : CacheLevel) (r1 r2 : Reply) :
    (s.midAccess c2 r1 r2).l1Reply = r1 := rfl

@[simp] theorem Reply.ofFlag_flag (b : Bool) : (Reply.ofFlag b).flag = b := rfl

section
variable {s : State} {c2 : CacheLevel} {r1 r2 : Reply}

/-- Step 2a of READ: L2 is filled at the address when it replied to the probe that it misses (R89, R92). -/
theorem midAccess_fill_on_miss (hok2 : c2.cfgOk = true) (a : Address) :
    ∃ r, (if (s.midAccess c2 r1 r2).l2Reply.flag then .next (s.midAccess c2 r1 r2)
      else exec (.fill .l2 (wbMux .req a 0)) (s.midAccess c2 r1 r2)) =
      .next (s.midAccess (if r2.flag then c2 else c2.fill a) r1 r) := by
  cases hf : r2.flag with
  | true => exact ⟨r2, if_pos hf⟩
  | false => exact ⟨Reply.zero, (if_neg (ne_true_of_eq_false hf)).trans (exec_fill_next.2 ⟨hok2, rfl⟩)⟩

/-- Step 2b of READ: L2 is filled at the victim's address when L1 replied to VDIRTY that it is dirty (R89, R92, R93). -/
theorem midAccess_writeBack (hok1 : s.l1.cfgOk = true) (hok2 : c2.cfgOk = true) (a : Address) :
    ∃ r r', (if (s.midAccess c2 r1 r2).l1Reply.flag then
        andThen (exec (.vaddr .l1 a) (s.midAccess c2 r1 r2)) fun u =>
          exec (.fill .l2 (wbMux .victim a u.l1Reply.vaddr)) u
      else .next (s.midAccess c2 r1 r2)) =
      .next (s.midAccess (if r1.flag then c2.fill (s.l1.vaddr .l1 a) else c2) r r') := by
  cases hf : r1.flag with
  | true =>
    have hvaddr : exec (.vaddr .l1 a) (s.midAccess c2 r1 r2) =
        .next (s.midAccess c2 (Reply.ofVaddr (s.l1.vaddr .l1 a)) r2) := exec_vaddr_next.2 ⟨hok1, rfl⟩
    refine ⟨Reply.ofVaddr (s.l1.vaddr .l1 a), Reply.zero, (if_pos hf).trans ?_⟩
    rw [hvaddr, andThen_next]
    exact exec_fill_next.2 ⟨hok2, rfl⟩
  | false => exact ⟨r1, r2, if_neg (ne_true_of_eq_false hf)⟩

/-- The last step of READ: L1 is filled at the address (R89, R92). -/
theorem midAccess_fill_l1 (hok1 : s.l1.cfgOk = true) (a : Address) :
    exec (.fill .l1 a) (s.midAccess c2 r1 r2) =
      .next { s with l1 := s.l1.fill a, l2 := c2, l1Reply := Reply.zero, l2Reply := r2 } :=
  exec_fill_next.2 ⟨hok1, rfl⟩

end

/-- The sequence of a READ that hits L1 ends after its first probe (R91, R92). -/
theorem sequencedRead_l1_hit {s : State} {a : Address} (hok : s.l1.cfgOk = true) (hit : s.l1.matchHit a = true) :
    sequencedRead a s = .next { s with
      l1State := .readHit, l2State := .noAction, l1Reply := Reply.ofFlag true } := by
  have hprobe : exec (.probeRd .l1 a) s = .next { s with l1Reply := Reply.ofFlag true } :=
    exec_probeRd_next.2 ⟨hok, by rw [State.level_l1, hit]; rfl⟩
  rw [sequencedRead, hprobe, andThen_next]
  rfl

/-- The sequence of a READ that misses L1 fills both levels as READ does (R89, R92). -/
theorem sequencedRead_l1_miss {s : State} {a : Address} (hok1 : s.l1.cfgOk = true) (hok2 : s.l2.cfgOk = true)
    (hmiss : s.l1.matchHit a = false) : ∃ r1 r2, sequencedRead a s = .next { s with
      l1 := s.l1.fill a
      l2 := l2AfterReadMiss s.l1 s.l2 a
      l1State := .readMiss
      l2State := if s.l2.matchHit a then .readHit else .readMiss
      l1Reply := r1
      l2Reply := r2 } := by
  have hprobe1 : exec (.probeRd .l1 a) s = .next (s.midAccess s.l2 (Reply.ofFlag false) s.l2Reply) :=
    exec_probeRd_next.2 ⟨hok1, by rw [State.level_l1, hmiss]; rfl⟩
  have hprobe2 : exec (.probeRd .l2 (wbMux .req a 0)) (s.midAccess s.l2 (Reply.ofFlag false) s.l2Reply) =
      .next (s.midAccess s.l2 (Reply.ofFlag false) (Reply.ofFlag (s.l2.matchHit a))) :=
    exec_probeRd_next.2 ⟨hok2, rfl⟩
  obtain ⟨q, h2a⟩ := midAccess_fill_on_miss (s := s) (r1 := Reply.ofFlag false)
    (r2 := Reply.ofFlag (s.l2.matchHit a)) hok2 a
  rw [sequencedRead, hprobe1, andThen_next, State.midAccess_l1Reply, Reply.ofFlag_flag,
    if_neg Bool.false_ne_true, hprobe2, andThen_next, h2a, andThen_next]
  generalize hc2 : (if (Reply.ofFlag (s.l2.matchHit a)).flag then s.l2 else s.l2.fill a) = c2
  have hok2a : c2.cfgOk = true := by rw [← hc2]; split <;> exact hok2
  have hvdirty : exec (.vdirty .l1 a) (s.midAccess c2 (Reply.ofFlag false) q) =
      .next (s.midAccess c2 (Reply.ofFlag (s.l1.vdirty a)) q) := exec_vdirty_next.2 ⟨hok1, rfl⟩
  obtain ⟨r, r', h2b⟩ := midAccess_writeBack (s := s) (r1 := Reply.ofFlag (s.l1.vdirty a)) (r2 := q) hok1 hok2a a
  rw [hvdirty, andThen_next, h2b, andThen_next, midAccess_fill_l1 hok1, andThen_next, ← hc2]
  exact ⟨Reply.zero, r', rfl⟩

/-- Settles O44: the sequence leaves what READ leaves, but for the replies. -/
theorem readIsItsSequence : Obligations.ReadIsItsSequence := by
  intro s a hcon
  obtain ⟨hok1, hok2⟩ := s.constructed_iff.1 hcon
  cases hm : s.l1.matchHit a with
  | true => exact ⟨_, sequencedRead_l1_hit hok1 hm, exec_read_l1_hit hcon hm⟩
  | false =>
    obtain ⟨r1, r2, hseq⟩ := sequencedRead_l1_miss hok1 hok2 hm
    exact ⟨_, hseq, exec_read_l1_miss hcon hm⟩

/-- The sequence of a WRITE that hits L1 ends after its probe (R91, R92). -/
theorem sequencedWrite_l1_hit {s : State} {a : Address} (hok : s.l1.cfgOk = true) (hit : s.l1.matchHit a = true) :
    sequencedWrite a s = .next { s with
      l1 := s.l1.probeWr Config.multiMatch a
      l1State := .writeHit
      l2State := .noAction
      l1Reply := Reply.ofFlag true } := by
  have hprobe : exec (.probeWr .l1 a) s =
      .next { s with l1 := s.l1.probeWr Config.multiMatch a, l1Reply := Reply.ofFlag true } :=
    exec_probeWr_next.2 ⟨hok, by rw [State.level_l1, hit]; rfl⟩
  rw [sequencedWrite, hprobe, andThen_next]
  rfl

/-- The sequence of a WRITE that misses L1 probes L2 as WRITE does (R90, R92). -/
theorem sequencedWrite_l1_miss {s : State} {a : Address} (hok1 : s.l1.cfgOk = true) (hok2 : s.l2.cfgOk = true)
    (hmiss : s.l1.matchHit a = false) : sequencedWrite a s = .next { s with
      l2 := s.l2.probeWr Config.multiMatch a
      l1State := .writeMiss
      l2State := if s.l2.matchHit a then .writeHit else .writeMiss
      l1Reply := Reply.ofFlag false
      l2Reply := Reply.ofFlag (s.l2.matchHit a) } := by
  have hprobe1 : exec (.probeWr .l1 a) s = .next (s.midAccess s.l2 (Reply.ofFlag false) s.l2Reply) :=
    exec_probeWr_next.2 ⟨hok1, by rw [State.level_l1, CacheLevel.probeWr_miss _ hmiss, hmiss]; rfl⟩
  have hprobe2 : exec (.probeWr .l2 (wbMux .req a 0)) (s.midAccess s.l2 (Reply.ofFlag false) s.l2Reply) =
      .next (s.midAccess (s.l2.probeWr Config.multiMatch a) (Reply.ofFlag false) (Reply.ofFlag (s.l2.matchHit a))) :=
    exec_probeWr_next.2 ⟨hok2, rfl⟩
  rw [sequencedWrite, hprobe1, andThen_next, State.midAccess_l1Reply, Reply.ofFlag_flag,
    if_neg Bool.false_ne_true, hprobe2, andThen_next]
  rfl

/-- Settles O45: the sequence leaves what WRITE leaves, but for the replies. -/
theorem writeIsItsSequence : Obligations.WriteIsItsSequence := by
  intro s a hcon
  obtain ⟨hok1, hok2⟩ := s.constructed_iff.1 hcon
  cases hm : s.l1.matchHit a with
  | true => exact ⟨_, sequencedWrite_l1_hit hok1 hm, exec_write_l1_hit hcon hm⟩
  | false => exact ⟨_, sequencedWrite_l1_miss hok1 hok2 hm, exec_write_l1_miss hcon hm⟩

/-! ### What is presented -/

/-- Settles O9: the step takes nothing. -/
theorem stepWithoutInputChangesNothing : Obligations.StepWithoutInputChangesNothing :=
  fun _ => step_of_empty

/-- No operation takes, adds or reorders what is presented (R112, R119). -/
theorem exec_presented {i : Instr} {s t : State} (h : exec i s = .next t) :
    t.inputs = s.inputs ∧ t.bench = s.bench := by
  obtain ⟨-, -, hin, hbench⟩ := exec_outputs h
  exact ⟨hin, hbench⟩

/-- No interaction takes, adds or reorders what is still presented. -/
theorem interact_presented {i : Interaction} {s t : State} (h : interact i s = .next t) :
    t.inputs = s.inputs ∧ t.bench = s.bench := by
  rcases interact_next h with ⟨j, hj⟩ | ⟨j, k, u, hj, hk⟩
  · exact exec_presented hj
  · obtain ⟨hin, hbench⟩ := exec_presented hj
    obtain ⟨hin', hbench'⟩ := exec_presented hk
    exact ⟨hin'.trans hin, hbench'.trans hbench⟩

/-- An access goes on only when both levels exist (R109, R117). -/
theorem constructed_of_exec_access {i : Instr} (hi : i.isAccess = true) {s t : State} (h : exec i s = .next t) :
    s.constructed = true := by
  by_contra hcon
  rw [exec_access_refused hi (eq_false_of_ne_true hcon)] at h
  cases h

theorem execAll_pair {i j : Instr} {s u t : State} (hi : exec i s = .next u) (hj : exec j u = .next t) :
    execAll [i, j] s = .next t := by
  rw [execAll, hi, andThen_next, execAll, hj]
  rfl

/-- An interaction that goes on was an access to constructed levels, or the two CONFIGURE of a block of which L1 does
not exist (R124). -/
theorem interact_cases {x : Interaction} {s t : State} (h : interact x s = .next t) :
    (s.constructed = true ∧ ∃ i, i.isAccess = true ∧ exec i s = .next t) ∨
    (s.l1.cfgOk = false ∧ ∃ b1 w1 c1 b2 w2 c2,
      execAll [.configure .l1 b1 w1 c1, .configure .l2 b2 w2 c2] s = .next t) := by
  cases x with
  | access w =>
    obtain ⟨i, hdec, hi⟩ := decode_req w
    have hexec : exec i s = .next t := (State.access_of_decode hdec s).symm.trans h
    exact .inl ⟨constructed_of_exec_access hi hexec, i, hi, hexec⟩
  | construct w1 w2 =>
    have hexec := (State.construct_of_decode (decode_cfg _ w1) (decode_cfg _ w2) s).symm.trans h
    obtain ⟨u, h1, h2⟩ := andThen_eq_next hexec
    exact .inr ⟨(exec_configure_next h1).1, _, _, _, _, _, _, execAll_pair h1 h2⟩

/-- Settles O10: a step that goes on took the bench's word, or one interaction, or had nothing to take. -/
theorem operationsLeaveInputsAlone : Obligations.OperationsLeaveInputsAlone := by
  refine ⟨fun i s t h => exec_presented h, fun s t h => ?step⟩
  rcases step_next h with ⟨hb, hin, rfl⟩ | ⟨pw, rest, i, hb, -, he⟩ | ⟨x, rest, hb, hin, hx⟩
  · rw [hb, hin]
    exact ⟨rfl, fun _ => rfl, fun _ => ⟨rfl, .inl rfl⟩⟩
  · obtain ⟨hin', hb'⟩ := exec_presented he
    rw [hb]
    exact ⟨hb', fun _ => hin', nofun⟩
  · obtain ⟨hin', hb'⟩ := interact_presented hx
    obtain rfl : rest = s.inputs.tail := by rw [hin, List.tail_cons]
    exact ⟨hb'.trans (by rw [hb, List.tail_nil]), fun hne => absurd hb hne, fun _ => ⟨hin', .inr (interact_cases hx)⟩⟩

/-! ### Legal runs -/

/-- Where what holds lets a step go on and holds again after it, a run of any number of steps ends in a next state. -/
theorem core_run_of_progress {P : State → Prop} (hstep : ∀ s, P s → ∃ t, step s = .next t ∧ P t) (n : Nat) {s : State}
    (hs : P s) : ∃ t, Sys2Proof.core.run n s = .next t := by
  induction n generalizing s with
  | zero => exact ⟨s, core_run_zero s⟩
  | succ n ih =>
    obtain ⟨t, ht, hPt⟩ := hstep s hs
    rw [core_run_succ n ht]
    exact ih hPt

/-- What a legal environment may present to the block (R117, R124): to a block without levels one construction, with
accesses after it if it succeeds, and to a constructed block accesses alone. -/
def State.Permits (s : State) (is : List Interaction) : Prop :=
  (s.l1.cfgOk = false ∧ s.l2.cfgOk = false ∧ legalInputs is = true) ∨
    (s.constructed = true ∧ is.all isAccessInput = true)

/-- An access to constructed levels goes on and keeps them. -/
theorem State.access_constructed {s : State} (hcon : s.constructed = true) (w : BitVec 33) :
    ∃ t, s.access w = .next t ∧ t.constructed = true := by
  obtain ⟨i, hdec, hi⟩ := decode_req w
  obtain ⟨t, -, ht, -⟩ := exec_access_observed hi hcon
  have hsame := exec_sameGeometry (ne_configure_of_constructed hcon ht) ht
  exact ⟨t, (State.access_of_decode hdec s).trans ht, hsame.constructed.trans hcon⟩

/-- The construction of a block without levels constructs both, if both configurations are valid, or leaves it without
levels (R102, R109). -/
theorem State.construct_result {s : State} (h1 : s.l1.cfgOk = false) (h2 : s.l2.cfgOk = false) (w1 w2 : BitVec 96) :
    ∃ t, s.construct w1 w2 = .next t ∧
      ((validate (cfgOfWord w1) = none ∧ validate (cfgOfWord w2) = none ∧ t.constructed = true) ∨
      (¬ (validate (cfgOfWord w1) = none ∧ validate (cfgOfWord w2) = none) ∧
        t.l1.cfgOk = false ∧ t.l2.cfgOk = false)) := by
  refine ⟨_, State.construct_unbuilt h1 h2 w1 w2, ?_⟩
  cases validate (cfgOfWord w1) with
  | some r => exact .inr ⟨nofun, rfl, rfl⟩
  | none =>
    cases validate (cfgOfWord w2) with
    | some r => exact .inr ⟨nofun, rfl, rfl⟩
    | none => exact .inl ⟨rfl, rfl, rfl⟩

/-- A legal construction is followed by accesses, and by none unless both configurations are valid (R124). -/
theorem legalInputs_construct {w1 w2 : BitVec 96} {rest : List Interaction}
    (h : legalInputs (.construct w1 w2 :: rest) = true) : rest.all isAccessInput = true ∧
      (rest = [] ∨ validate (cfgOfWord w1) = none ∧ validate (cfgOfWord w2) = none) := by
  simpa [legalInputs] using h

/-- A permitted interaction goes on, and what is presented after it is permitted then. -/
theorem State.Permits.interact {s : State} {x : Interaction} {rest : List Interaction} (h : s.Permits (x :: rest)) :
    ∃ t, interact x s = .next t ∧ t.Permits rest := by
  rcases h with ⟨h1, h2, hlegal⟩ | ⟨hcon, hall⟩
  · cases x with
    | access w => cases hlegal
    | construct w1 w2 =>
      obtain ⟨hacc, hrest⟩ := legalInputs_construct hlegal
      obtain ⟨t, ht, ⟨-, -, hcon⟩ | ⟨hinvalid, ht1, ht2⟩⟩ := State.construct_result h1 h2 w1 w2
      · exact ⟨t, ht, .inr ⟨hcon, hacc⟩⟩
      · obtain rfl := hrest.resolve_right hinvalid
        exact ⟨t, ht, .inl ⟨ht1, ht2, rfl⟩⟩
  · rw [List.all_cons, Bool.and_eq_true] at hall
    obtain ⟨hx, hall⟩ := hall
    cases x with
    | construct w1 w2 => cases hx
    | access w =>
      obtain ⟨t, ht, hcon'⟩ := State.access_constructed hcon w
      exact ⟨t, ht, .inr ⟨hcon', hall⟩⟩

/-- With no test bench at work, a step of a block that permits what is presented goes on and leaves it so. -/
theorem step_of_permits {s : State} (h : s.bench = [] ∧ s.Permits s.inputs) :
    ∃ t, step s = .next t ∧ t.bench = [] ∧ t.Permits t.inputs := by
  obtain ⟨hb, hlegal⟩ := h
  cases hin : s.inputs with
  | nil => exact ⟨s, step_of_empty hb hin, hb, hlegal⟩
  | cons x rest =>
    rw [hin] at hlegal
    obtain ⟨t, ht, hlegal'⟩ := State.Permits.interact (s := { s with inputs := rest }) hlegal
    obtain ⟨hin', hb'⟩ := interact_presented ht
    exact ⟨t, (step_of_input hb hin).trans ht, hb'.trans hb, hin' ▸ hlegal'⟩

/-- Settles O11: what a legal environment presents stays permitted with every step. -/
theorem legalRunNeverStops : Obligations.LegalRunNeverStops := fun _ n hb hlegal =>
  core_run_of_progress (P := fun s => s.bench = [] ∧ s.Permits s.inputs) (fun _ => step_of_permits) n ⟨hb, hlegal⟩

end Sys2Proof.Machine
end

section
/-! PROOFS. The block's one exception (60_exceptions.md): when an operation is refused for want of a level, what ConfigError
leaves, and that nothing faults (R106). -/

namespace Sys2Proof.Machine

open Sys2Proof

/-! ### Operations that need a level -/

/-- An operation of a level that does not exist is refused (R109, U6). -/
theorem State.onLevel_refused {s : State} {l : LevelId} (k : CacheLevel → State) (h : (s.level l).cfgOk = false) :
    s.onLevel l k = .refused (.levelNotConstructed l) := if_neg (by simp [h])

/-- The level without which an operation is refused: none for the accesses, NOP and CONFIGURE. -/
def Instr.neededLevel : Instr → Option LevelId
  | .probeRd l _ | .probeWr l _ | .vdirty l _ | .fill l _ | .vaddr l _ => some l
  | .reset l | .decode l _ | .compose l _ _ => some l
  | .read _ | .write _ | .nop _ _ | .configure _ _ _ _ => none

/-- An operation that needs a level is run on it. -/
theorem exec_eq_onLevel {i : Instr} {l : LevelId} (h : Instr.neededLevel i = some l) (s : State) :
    ∃ k, exec i s = s.onLevel l k := by
  cases i with
  | read | write | nop | configure => cases h
  | probeRd l a => cases h; exact ⟨_, exec_probeRd l a s⟩
  | probeWr l a => cases h; exact ⟨_, exec_probeWr l a s⟩
  | vdirty l a => cases h; exact ⟨_, exec_vdirty l a s⟩
  | fill l a => cases h; exact ⟨_, exec_fill l a s⟩
  | vaddr l a => cases h; exact ⟨_, exec_vaddr l a s⟩
  | reset l => cases h; exact ⟨_, exec_reset l s⟩
  | decode l a => cases h; exact ⟨_, exec_decode l a s⟩
  | compose l x y => cases h; exact ⟨_, exec_compose l x y s⟩

theorem exec_refused_of_no_level {i : Instr} {l : LevelId} (h : Instr.neededLevel i = some l) {s : State}
    (hl : (s.level l).cfgOk = false) : exec i s = .refused (.levelNotConstructed l) := by
  obtain ⟨k, hk⟩ := exec_eq_onLevel h s
  rw [hk, State.onLevel_refused k hl]

/-! ### Accesses, and faults -/

/-- An access is refused exactly when not both levels exist (R109, R117). -/
theorem exec_access_refused_iff {i : Instr} (hi : i.isAccess = true) (s : State) :
    exec i s = .refused .blockNotConstructed ↔ s.constructed = false := by
  refine ⟨fun h => ?_, exec_access_refused hi⟩
  by_contra hcon
  obtain ⟨t, -, ht, -⟩ := exec_access_observed hi (eq_true_of_ne_false hcon)
  rw [ht] at h
  cases h

theorem exec_ne_fault_of_neededLevel {i : Instr} {l : LevelId} (h : Instr.neededLevel i = some l) (s : State)
    (f : Fault) : exec i s ≠ .fault f := by
  cases hl : (s.level l).cfgOk with
  | true =>
    obtain ⟨k, hk⟩ := exec_eq_onLevel h s
    rw [hk, State.onLevel_ok k hl]; nofun
  | false => rw [exec_refused_of_no_level h hl]; nofun

theorem exec_access_ne_fault {i : Instr} (hi : i.isAccess = true) (s : State) (f : Fault) : exec i s ≠ .fault f := by
  cases h : s.constructed with
  | true =>
    obtain ⟨t, -, ht, -⟩ := exec_access_observed hi h
    rw [ht]; nofun
  | false => rw [exec_access_refused hi h]; nofun

theorem execConfigure_ne_fault (l : LevelId) (b w k : Nat) (s : State) (f : Fault) :
    execConfigure l b w k s ≠ .fault f := by
  rcases execConfigure_cases l b w k s with ⟨-, he⟩ | ⟨-, ⟨-, -, he⟩ | ⟨r, -, he⟩ | ⟨-, he⟩⟩ <;> rw [he] <;> nofun

/-- No operation answers a fault (R106). -/
theorem exec_ne_fault (i : Instr) (s : State) (f : Fault) : exec i s ≠ .fault f := by
  cases i with
  | read | write => exact exec_access_ne_fault rfl s f
  | nop => nofun
  | configure l b w k => exact execConfigure_ne_fault l b w k s f
  | probeRd | probeWr | vdirty | fill | vaddr | reset | decode | compose =>
    exact exec_ne_fault_of_neededLevel rfl s f

/-- Settles O50: an access by whether it is served, a fault by what each operation answers. -/
theorem accessesNeedConstruction : Obligations.AccessesNeedConstruction :=
  ⟨fun s _ => ⟨exec_access_refused_iff rfl s, exec_access_refused_iff rfl s⟩, exec_ne_fault⟩

/-! ### ConfigError -/

/-- After ConfigError no level exists (R109). -/
theorem State.raiseConfigError_cfgOk (s : State) (l l' : LevelId) (r : ConfigReason) :
    ((s.raiseConfigError l r).level l').cfgOk = false := by rw [State.raiseConfigError_level, CacheLevel.absent_cfgOk]

/-- Settles O15: L1's configuration raises ConfigError, and L2's then changes nothing. -/
theorem firstLevelErrorIsReported : Obligations.FirstLevelErrorIsReported := by
  intro s b1 w1 c1 b2 w2 c2 r hc hv
  have hL1 : exec (.configure .l1 b1 w1 c1) s = .next (s.raiseConfigError .l1 r) :=
    exec_configure_invalid (l := .l1) hc nofun hv
  have hL2 : exec (.configure .l2 b2 w2 c2) (s.raiseConfigError .l1 r) = .next (s.raiseConfigError .l1 r) :=
    execConfigure_inert b2 w2 c2 (s.raiseConfigError_cfgOk .l1 .l2 r) (s.l1Failed_raise .l1 r)
  exact ⟨_, execAll_pair hL1 hL2, rfl, rfl, rfl, rfl, rfl⟩

/-- Settles O16: the state is that of ConfigError, where neither level exists. -/
theorem configErrorLeavesBlockInert : Obligations.ConfigErrorLeavesBlockInert := by
  intro s t l l' b w c r a x y hv h hf
  have hc := (exec_configure_next h).1
  obtain rfl : s.raiseConfigError l r = t := Host.Outcome.next.inj ((exec_configure_invalid hc hf hv).symm.trans h)
  have hcon : (s.raiseConfigError l r).constructed = false := rfl
  refine ⟨exec_access_refused rfl hcon, exec_access_refused rfl hcon, fun i hi => ?_⟩
  have hneeds : Instr.neededLevel i = some l' := by
    simp only [List.mem_cons, List.not_mem_nil, or_false] at hi
    rcases hi with rfl | rfl | rfl | rfl | rfl | rfl | rfl | rfl <;> rfl
  exact exec_refused_of_no_level hneeds (s.raiseConfigError_cfgOk l l' r)

end Sys2Proof.Machine
end

section
/-! PROOFS. RESET of one level (70_reset_and_hazards.md R115): the level it leaves lists no set, so every read of it answers
what a level without listed sets answers. -/

namespace Sys2Proof.Machine

open Sys2Proof

/-- After RESET every line is invalid and clean (R115). -/
theorem CacheLevel.lineAt_clear (c : CacheLevel) (l : LevelId) (k w : Nat) :
    (c.clear.lineAt l k w).valid = false ∧ (c.clear.lineAt l k w).dirty = false := by
  rw [CacheLevel.lineAt_of_empty c.clear_sets]
  exact ⟨rfl, rfl⟩

/-- After RESET every cursor is 0 (R115). -/
theorem CacheLevel.curAt_clear (c : CacheLevel) (k : Nat) : c.clear.curAt k = 0 := by
  rw [CacheLevel.curAt, CacheLevel.setAt_of_empty c.clear_sets]
  rfl

/-- After RESET every probe misses (R115). -/
theorem CacheLevel.probeRd_clear (c : CacheLevel) (a : Address) : c.clear.probeRd a = false :=
  CacheLevel.matchHit_of_empty c.clear_sets a

/-- Settles O21: RESET puts the cleared level in the place of the level, and a cleared level reads as empty. -/
theorem resetEmptiesLevel : Obligations.ResetEmptiesLevel := by
  intro s l hok
  have hreset : exec (.reset l) s = .next (s.setLevel l (s.level l).clear) := exec_reset_next.2 ⟨hok, rfl⟩
  exact ⟨(s.level l).clear, hreset, CacheLevel.clear_cfg _, CacheLevel.clear_geom _,
    (CacheLevel.clear_cfgOk _).trans hok, CacheLevel.lineAt_clear _ l, CacheLevel.curAt_clear _,
    CacheLevel.probeRd_clear _⟩

end Sys2Proof.Machine
end
